-- ==== Sys2Proof/Word.lean ====
section
/-! DEFINITION. The word and byte types of the core and the 16-word array the datapath works on. -/

namespace Sys2Proof

/-- A 32-bit unsigned word, with arithmetic modulo 2^32 (00_scope.md R10, R13). -/
abbrev Word := BitVec 32

/-- One byte of DMEM, of the key, of the nonce or of the keystream. -/
abbrev Byte := BitVec 8

/-- Sixteen words: the cipher state, the working copy, an output block (10_state.md R20, R23). -/
abbrev Words := Vector Word 16

/-- The 64 bytes of one keystream block (10_state.md R24). -/
abbrev Block := Vector Byte 64

end Sys2Proof
end

