-- ==== Sys2Proof/Syntax.lean ====
section
/-! DEFINITION. The commands of the core, the index tuples of the quarter round, the register names and the host's
program lines. -/

namespace Sys2Proof

/-- The commands, one constructor per row of the opcode table (30_encoding.md R93). A command word has no operand field
(R92). -/
inductive Instr where
  /-- INIT, command word 0x00000001: 41_state_initializer.md R124. -/
  | init
  /-- BLOCK, command word 0x00000002: 43_block_function.md R168. -/
  | block
  /-- APPLY, command word 0x00000003: 44_stream_loop.md R190. -/
  | apply
  deriving DecidableEq, Repr

/-- Why a command word is illegal (30_encoding.md R94), or why bytes hold no command word. -/
inductive DecodeError where
  /-- Bits 31:4 are not all zero. -/
  | mbzNonZero
  /-- OPCODE is 0x0 or 0x4 to 0xF. -/
  | reservedOpcode
  /-- Fewer than the four bytes of a command word (30_encoding.md R90). -/
  | truncated
  deriving DecidableEq, Repr

/-- What the decoder answers for a command word. -/
inductive Decoded where
  | ok (i : Instr)
  | reject (e : DecodeError)
  deriving DecidableEq, Repr

/-- The eight index tuples of the quarter round (42_quarter_round.md R141). No other tuple occurs (R144). -/
inductive QRTuple where
  | col0 | col1 | col2 | col3
  | diag0 | diag1 | diag2 | diag3
  deriving DecidableEq, Repr

/-- The named registers of the window (10_state.md R30). -/
inductive Reg where
  | ctrl | status | cmd | keyLen | nonceLen | ctrInit | src | dst | len
  | key (k : Fin 8)
  | nonce (k : Fin 3)
  | state (k : Fin 16)
  | ks (k : Fin 16)
  deriving DecidableEq, Repr

/-- One line of a host program: the bus operations of 30_encoding.md R98 and the pseudo-instructions of R99. -/
inductive HostLine where
  /-- `WR NAME, v`. -/
  | wr (r : Reg) (v : Word)
  /-- `RD NAME`. -/
  | rd (r : Reg)
  /-- `MWR a, [b0 b1 ...]`. -/
  | mwr (a : Nat) (bytes : List Byte)
  /-- `MRD a, n`. -/
  | mrd (a n : Nat)
  | init
  | block
  | apply
  | wait
  /-- `LOADKEY k0..k31`. -/
  | loadKey (k : Vector Byte 32)
  /-- `LOADNONCE n0..n11`. -/
  | loadNonce (n : Vector Byte 12)
  | clrDone
  deriving DecidableEq, Repr

end Sys2Proof
end

