-- ==== Sys2Proof/Decode.lean ====
section
/-! DEFINITION. Reading a command from its word, and the encoder written from the same table. -/

namespace Sys2Proof

/-- OPCODE, bits 3:0 of the command word (30_encoding.md R91). -/
def opcodeField (w : Word) : BitVec 4 := w.extractLsb' 0 4

/-- MBZ, bits 31:4 of the command word (30_encoding.md R91). -/
def mbzField (w : Word) : BitVec 28 := w.extractLsb' 4 28

/-- The opcode map (30_encoding.md R93). -/
def opcodeInstr (op : BitVec 4) : Decoded :=
  if op = 0x1 then .ok .init
  else if op = 0x2 then .ok .block
  else if op = 0x3 then .ok .apply
  else .reject .reservedOpcode

/-- Decoding a command word: the MBZ check comes before the opcode is looked at (30_encoding.md R97). -/
def decode (w : Word) : Decoded :=
  if mbzField w ≠ 0 then .reject .mbzNonZero else opcodeInstr (opcodeField w)

/-- The OPCODE value of a command (30_encoding.md R93). -/
def Instr.opcode : Instr → BitVec 4
  | .init => 0x1
  | .block => 0x2
  | .apply => 0x3

/-- The command word of a command: MBZ = 0 and its OPCODE (30_encoding.md R91, R93). -/
def encode (i : Instr) : Word := 0#28 ++ i.opcode

/-- The command word held by four bytes, the first at the lowest offset: the register space is little-endian
(10_state.md R32). -/
def wordOfBytes (b0 b1 b2 b3 : Byte) : Word := b3 ++ b2 ++ b1 ++ b0

/-- Decoding from bytes in the order CMD holds them: the command and the bytes after it. -/
def decodeBytes : List Byte → Decoded × List Byte
  | b0 :: b1 :: b2 :: b3 :: rest => (decode (wordOfBytes b0 b1 b2 b3), rest)
  | bytes => (.reject .truncated, bytes)

/-- The bytes of a command word in the order CMD holds them. -/
def bytesOfWord (w : Word) : List Byte :=
  [w.extractLsb' 0 8, w.extractLsb' 8 8, w.extractLsb' 16 8, w.extractLsb' 24 8]

/-- The command read from bits numbered as the opcode table numbers them. Every command word has 32 bits
(30_encoding.md R90), so a longer row is no command. -/
def decodeTableWord (nbits w : Nat) : Option Instr :=
  if nbits ≤ 32 then
    match (decodeBytes (bytesOfWord (BitVec.ofNat 32 (w % 2 ^ nbits)))).1 with
    | .ok i => some i
    | .reject _ => none
  else none

end Sys2Proof
end

