-- ==== Sys2Proof/Config.lean ====
section
/-! DEFINITION. What one platform or one implementation fixes: the OPEN parameters, the sizes the spec fixes, and the
free values the spec leaves open. -/

namespace Sys2Proof

/-- The parameters the spec leaves OPEN (00_scope.md R11, 20_memory.md R62). A machine carries its own, no step changes
them, and a statement over all states holds for every choice of them (log 1). -/
structure Params where
  /-- DMEM_SIZE: the number of bytes of data memory. -/
  dmemSize : Nat
  /-- REG_BASE: the host address of register offset 0x000. -/
  regBase : Nat
  /-- DMEM_HOST_BASE: the host address of DMEM byte 0. -/
  dmemHostBase : Nat
  deriving DecidableEq, Repr

/-- REG_WINDOW: the byte size of the register window (00_scope.md R11). -/
def Config.regWindow : Nat := 256

/-- BLOCK_BYTES: the byte size of one keystream block (00_scope.md R10). -/
def Config.blockBytes : Nat := 64

/-- Ten double rounds make the 20 rounds of one block (00_scope.md R10; 90_conflicts.md C1). -/
def Config.doubleRounds : Nat := 10

/-- KEY_BYTES: the only key length INIT accepts (00_scope.md R10). -/
def Config.keyBytes : Word := 32

/-- NONCE_BYTES: the only nonce length INIT accepts (00_scope.md R10). -/
def Config.nonceBytes : Word := 12

/-- The free 32-bit value of the n-th draw: what a STATE or KS register reads while BUSY = 1 (10_state.md R47). -/
opaque Config.freeWord : Nat → Word

/-- The free byte of the n-th draw: a byte of the destination range of an APPLY that a reset abandoned
(70_reset_and_hazards.md R261; 93_implementation_defined.md U8). -/
opaque Config.freeByte : Nat → Byte

/-- The free choice of the n-th draw: which of the two listed outcomes a race has (20_memory.md R71). -/
opaque Config.freeBit : Nat → Bool

end Sys2Proof
end

