-- ==== Sys2Proof/Machine/Bits.lean ====
section
/-! DEFINITION. Rotation and byte packing (00_scope.md R13, R14). -/

namespace Sys2Proof.Machine

/-- Rotate left by `n`, for 0 < n < 32 (00_scope.md R13). -/
def rotl32 (x : Word) (n : Nat) : Word := (x <<< n) ||| (x >>> (32 - n))

/-- Pack four bytes little-endian (00_scope.md R14). -/
def le32 (b0 b1 b2 b3 : Byte) : Word :=
  b0.setWidth 32 ||| (b1.setWidth 32 <<< 8) ||| (b2.setWidth 32 <<< 16) ||| (b3.setWidth 32 <<< 24)

/-- Byte `i` of a word, byte 0 the least significant: entry `i` of `bytes_le32` (00_scope.md R14). -/
def byteOf (w : Word) (i : Nat) : Byte := w.extractLsb' (8 * i) 8

end Sys2Proof.Machine
end

