-- ==== Sys2Proof/WellFormed.lean ====
section
/-! DEFINITION. The checks on syntax and parameters: command words, quarter-round indices, host
program lines, platform parameters. -/

namespace Sys2Proof

/-- A command has no operand, so every command is well formed (30_encoding.md R92). -/
def Instr.wf : Instr → Bool
  | .init => true
  | .block => true
  | .apply => true

/-- A command word is legal when its MBZ field is zero and its OPCODE is 1, 2 or 3 (30_encoding.md R94). -/
def legalWord (w : Word) : Bool :=
  w.extractLsb' 4 28 == 0 && (w.extractLsb' 0 4 == 1 || w.extractLsb' 0 4 == 2 || w.extractLsb' 0 4 == 3)

/-- The index tuples the quarter round has a meaning for (42_quarter_round.md R141, R144). -/
def qrIndicesWf (a b c d : Nat) : Bool :=
  (a, b, c, d) ∈
    [(0, 4, 8, 12), (1, 5, 9, 13), (2, 6, 10, 14), (3, 7, 11, 15),
     (0, 5, 10, 15), (1, 6, 11, 12), (2, 7, 8, 13), (3, 4, 9, 14)]

/-- Two host address ranges, each a base and a size, share no address. -/
def rangesDisjoint (a la b lb : Nat) : Bool :=
  decide (a + la ≤ b) || decide (b + lb ≤ a)

/-- The constraints on the OPEN parameters: 1 ≤ DMEM_SIZE ≤ 2^32, REG_BASE aligned to the window
(92_eei_decisions.md, "Parameters left OPEN"), and two windows that do not overlap in the host's address map (log 11). -/
def Params.wf (p : Params) : Bool :=
  decide (1 ≤ p.dmemSize) && decide (p.dmemSize ≤ 2 ^ 32) && p.regBase % Config.regWindow == 0 &&
    rangesDisjoint p.regBase Config.regWindow p.dmemHostBase p.dmemSize

/-- A host program line stays inside DMEM; register names are always aligned 32-bit accesses (30_encoding.md R98). -/
def HostLine.wf (p : Params) : HostLine → Bool
  | .mwr a bytes => decide (a + bytes.length ≤ p.dmemSize)
  | .mrd a n => decide (a + n ≤ p.dmemSize)
  | .wr _ _ => true
  | .rd _ => true
  | .init => true
  | .block => true
  | .apply => true
  | .wait => true
  | .loadKey _ => true
  | .loadNonce _ => true
  | .clrDone => true

end Sys2Proof
end

