-- ==== Sys2Proof/Machine/QuarterRound.lean ====
section
/-! DEFINITION. The quarter-round unit and its eight index tuples (42_quarter_round.md). -/

namespace Sys2Proof.Machine

/-- Index a of a tuple (42_quarter_round.md R141). -/
def qrA : QRTuple → Fin 16
  | .col0 => 0 | .col1 => 1 | .col2 => 2 | .col3 => 3
  | .diag0 => 0 | .diag1 => 1 | .diag2 => 2 | .diag3 => 3

/-- Index b of a tuple. -/
def qrB : QRTuple → Fin 16
  | .col0 => 4 | .col1 => 5 | .col2 => 6 | .col3 => 7
  | .diag0 => 5 | .diag1 => 6 | .diag2 => 7 | .diag3 => 4

/-- Index c of a tuple. -/
def qrC : QRTuple → Fin 16
  | .col0 => 8 | .col1 => 9 | .col2 => 10 | .col3 => 11
  | .diag0 => 10 | .diag1 => 11 | .diag2 => 8 | .diag3 => 9

/-- Index d of a tuple. -/
def qrD : QRTuple → Fin 16
  | .col0 => 12 | .col1 => 13 | .col2 => 14 | .col3 => 15
  | .diag0 => 15 | .diag1 => 12 | .diag2 => 13 | .diag3 => 14

/-- One add-rotate-xor step: `w[x] <- w[x] + w[y]; w[z] <- rotl32(w[z] ^ w[x], n)`. -/
def arxStep (w : Words) (x y z : Fin 16) (n : Nat) : Words :=
  let w1 := w.set x (w[x] + w[y])
  w1.set z (rotl32 (w1[z] ^^^ w1[x]) n)

/-- The four steps of the quarter round, in order, with rotations 16, 12, 8, 7 (42_quarter_round.md R140). -/
def quarterRound (t : QRTuple) (w : Words) : Words :=
  let w1 := arxStep w (qrA t) (qrB t) (qrD t) 16
  let w2 := arxStep w1 (qrC t) (qrD t) (qrB t) 12
  let w3 := arxStep w2 (qrA t) (qrB t) (qrD t) 8
  arxStep w3 (qrC t) (qrD t) (qrB t) 7

/-- The tuple of four indices, if it is one of the eight. -/
def qrTuple? (a b c d : Nat) : Option QRTuple :=
  [.col0, .col1, .col2, .col3, .diag0, .diag1, .diag2, .diag3].find? fun t =>
    decide ((qrA t).val = a) && decide ((qrB t).val = b) && decide ((qrC t).val = c) && decide ((qrD t).val = d)

/-- QR on any four indices: a term outside the eight tuples is refused rather than given a value
(42_quarter_round.md R144). -/
def quarterRound? (a b c d : Nat) (w : Words) : Option Words := (qrTuple? a b c d).map fun t => quarterRound t w

end Sys2Proof.Machine
end

