-- ==== Sys2Proof/Machine/BlockFunction.lean ====
section
/-! DEFINITION. The block function and the counter increment, as pure functions of the 16 state words
(43_block_function.md, 44_stream_loop.md R192). -/

namespace Sys2Proof.Machine

/-- The column round (43_block_function.md R160). -/
def columnRound (w : Words) : Words :=
  quarterRound .col3 (quarterRound .col2 (quarterRound .col1 (quarterRound .col0 w)))

/-- The diagonal round (43_block_function.md R161). -/
def diagonalRound (w : Words) : Words :=
  quarterRound .diag3 (quarterRound .diag2 (quarterRound .diag1 (quarterRound .diag0 w)))

/-- A double round: the column round, then the diagonal round (43_block_function.md R162). -/
def doubleRound (w : Words) : Words := diagonalRound (columnRound w)

/-- `k` double rounds. -/
def doubleRounds : Nat → Words → Words
  | 0, w => w
  | k + 1, w => doubleRounds k (doubleRound w)

/-- The permutation P: ten double rounds (43_block_function.md R163). -/
def permute (w : Words) : Words := doubleRounds Config.doubleRounds w

/-- Feed-forward: each word added to the original state word (43_block_function.md R165). -/
def feedForward (w s : Words) : Words := Vector.zipWith (· + ·) w s

/-- The 16 output words of the block function (43_block_function.md R164, R165). -/
def blockWords (s : Words) : Words := feedForward (permute s) s

/-- Little-endian serialization of the output words (43_block_function.md R166). -/
def serialize (w : Words) : Block := Vector.ofFn fun j : Fin 64 => byteOf w[j.val / 4] (j.val % 4)

/-- The block function Block(s) (43_block_function.md R167). -/
def block (s : Words) : Block := serialize (blockWords s)

/-- CtrInc: the counter increment with a carry into word 13 only (44_stream_loop.md R192). -/
def ctrInc (s : Words) : Words :=
  let s1 := s.set 12 (s[12] + 1)
  if s1[12] = 0 then s1.set 13 (s1[13] + 1) else s1

/-- The 64-bit counter, word 13 above word 12 (44_stream_loop.md R192, R199). -/
def counter (s : Words) : BitVec 64 := s[13] ++ s[12]

/-- The state words with the 64-bit counter set (44_stream_loop.md R199). -/
def withCounter (s : Words) (c : BitVec 64) : Words :=
  (s.set 12 (c.extractLsb' 0 32)).set 13 (c.extractLsb' 32 32)

/-- Byte `k` of the keystream that starts at the counter of `s`: byte `k mod 64` of the block `k div 64` blocks on
(44_stream_loop.md R199). -/
def keystreamByte (s : Words) (k : Nat) : Byte :=
  (block (withCounter s (counter s + BitVec.ofNat 64 (k / 64))))[k % 64]'(Nat.mod_lt k (by decide))

end Sys2Proof.Machine
end

