-- ==== Sys2Proof/Machine/State.lean ====
section
/-! DEFINITION. The state of the machine as plain data, the reasons a step can stop, and the state after reset. -/

namespace Sys2Proof.Machine

/-- The core's control phase, which takes the place of a program counter (10_state.md R25). -/
inductive Phase where
  | idle | decode | gen | xor
  deriving DecidableEq, Repr

/-- The error codes of STATUS.ERR (60_exceptions.md R230). Codes 7 to 15 are never produced, so they have no
constructor (93_implementation_defined.md U5). -/
inductive ErrCode where
  | ok | keySize | nonceSize | capacity | overlap | illegal | notInit
  deriving DecidableEq, Repr

/-- DMEM as address and byte pairs: addresses strictly rising, and no byte equal to what an unlisted address reads as
(`unlistedByte`). -/
abbrev Memory := List Host.Cell

/-- The operands a command runs on, copied at its accept (10_state.md R27). -/
structure Latches where
  cmd : Word
  key : Vector Byte 32
  keyLen : Word
  nonce : Vector Byte 12
  nonceLen : Word
  ctr : Word
  src : Word
  dst : Word
  len : Word
  deriving DecidableEq, Repr

/-- The APPLY cursors (10_state.md R28). Addresses are naturals (00_scope.md R13): a cursor past the last byte of a
2^32-byte DMEM is 2^32. -/
structure Cursors where
  /-- Bytes still to process. -/
  rem : Nat
  /-- Source address of the current block's first byte. -/
  scur : Nat
  /-- Destination address of the current block's first byte. -/
  dcur : Nat
  /-- Byte count of the current block. -/
  n : Nat
  /-- Index of the next byte within the current block. -/
  j : Nat
  deriving DecidableEq, Repr

/-- The host's operand registers (10_state.md R41, R42, R43). -/
structure OperandRegs where
  keyLen : Word
  nonceLen : Word
  ctrInit : Word
  src : Word
  dst : Word
  len : Word
  key : Vector Word 8
  nonce : Vector Word 3
  deriving DecidableEq, Repr

/-- What the races between host and core have decided so far in the running command (20_memory.md R71). The model's own
record (log 7); empty while the core is idle. -/
structure Race where
  /-- DMEM with the host's writes since the accept and none of the core's: a byte's value before APPLY. -/
  hostView : Memory
  /-- Source bytes the core has already fetched: a later host write to one is not seen by the core. -/
  fetched : Memory
  /-- Destination bytes whose final value is the host's: the core's write of one came before the host's. -/
  landed : List Nat
  deriving DecidableEq, Repr

/-- No race has happened. -/
def Race.none : Race := { hostView := [], fetched := [], landed := [] }

/-- One thing that happens next: a core step, a host bus step or a reset (00_scope.md R9, R17; 70_reset_and_hazards.md
R260). The list of these in State is the interleaving of the two agents (log 4). -/
inductive Event where
  /-- The core takes its enabled step, if it has one. -/
  | core
  /-- The core takes its enabled step, and the platform's DMEM refuses the access it makes, if it makes one
  (93_implementation_defined.md U14). -/
  | coreDmemRefused
  /-- A host read of `size` bytes at a register offset. -/
  | regRead (off size : Nat)
  /-- A host write of `size` bytes at a register offset. -/
  | regWrite (off size : Nat) (v : Word)
  /-- A host read of one byte of DMEM. -/
  | dmemRead (a : Nat)
  /-- A host write of one byte of DMEM. -/
  | dmemWrite (a : Nat) (b : Byte)
  /-- A host bus read of `size` bytes at a host address. -/
  | busRead (addr size : Nat)
  /-- A host bus write of bytes at a host address, the first at the lowest. -/
  | busWrite (addr : Nat) (bytes : List Byte)
  /-- The pseudo-instruction WAIT (30_encoding.md R99). -/
  | wait
  /-- The reset input is asserted. -/
  | reset
  deriving DecidableEq, Repr

/-- What one host read returned; the host program records it (30_encoding.md R98). -/
inductive HostRead where
  | reg (off : Nat) (v : Word)
  | dmem (a : Nat) (b : Byte)
  deriving DecidableEq, Repr

/-- The machine: the core's state, the host's registers, DMEM, the platform's parameters, and what is still to happen. -/
structure State where
  /-- The cipher state register (10_state.md R20). -/
  st : Words
  /-- The VALID flag (10_state.md R29). -/
  valid : Bool
  /-- The working copy (10_state.md R23). -/
  wk : Words
  /-- The keystream buffer (10_state.md R24). -/
  ks : Block
  /-- The control phase (10_state.md R25); STATUS.BUSY is derived from it (R35). -/
  phase : Phase
  /-- The latched operands (10_state.md R27). -/
  lat : Latches
  /-- The APPLY cursors (10_state.md R28). -/
  cur : Cursors
  /-- CTRL.IRQ_EN (10_state.md R33). -/
  irqEn : Bool
  /-- STATUS.DONE (10_state.md R37). -/
  done : Bool
  /-- STATUS.OVERRUN (10_state.md R38). -/
  overrun : Bool
  /-- STATUS.ERR (10_state.md R39). -/
  err : ErrCode
  /-- The operand registers (10_state.md R41 to R43). -/
  regs : OperandRegs
  /-- The data memory (20_memory.md R60). -/
  dmem : Memory
  /-- The OPEN parameters (00_scope.md R11). -/
  params : Params
  /-- What the races of the running command have decided (20_memory.md R71). -/
  race : Race
  /-- What happens next, oldest first. When it is empty, the core runs alone. -/
  inputs : List Event
  /-- What the host's reads returned, newest first. -/
  reads : List HostRead
  /-- How many free values have been drawn. -/
  draws : Nat
  deriving DecidableEq, Repr

/-- Why the machine stops with a fault. Each is safe: the model goes on nowhere the hardware would not. -/
inductive Fault where
  /-- A host register access that is not an aligned 32-bit access inside the window (10_state.md R31, 60_exceptions.md
  R239); raised by the host's register accesses. Safe. -/
  | hostBusFault (off size : Nat)
  /-- The platform's DMEM refuses an in-range access of the core (93_implementation_defined.md U14); raised by the event
  `coreDmemRefused` during an XOR step. Safe. -/
  | dmemRefused
  /-- An access to a DMEM address at or past DMEM_SIZE, which does not exist (20_memory.md R60); raised by host DMEM
  accesses, and by an XOR step only in states no run reaches. Safe (log 10). -/
  | dmemOutOfRange (a : Nat)
  deriving DecidableEq, Repr

/-- Why the model has no meaning for what is asked. Each is safe: nothing follows from a refused step. -/
inductive Refusal where
  /-- An instruction without a meaning; raised by no arm of exec. Safe. -/
  | notModelled (mnemonic : String)
  /-- An XOR step with j ≥ 64, which names no keystream byte (44_stream_loop.md R194); raised only in states no run
  reaches. Safe (log 13). -/
  | noKeystreamByte (j : Nat)
  /-- A host bus access to an address that both windows claim; raised only under parameters that are not well formed
  (log 11). Safe. -/
  | ambiguousHostAddress (addr : Nat)
  deriving DecidableEq, Repr

/-- The outcome of one step. -/
abbrev Result := Host.Outcome State Fault Refusal

/-- The latches at reset: unspecified by 10_state.md R49; zero is a DESIGN CHOICE (log 3). -/
def Latches.reset : Latches :=
  { cmd := 0, key := Vector.replicate 32 0, keyLen := 0, nonce := Vector.replicate 12 0, nonceLen := 0, ctr := 0,
    src := 0, dst := 0, len := 0 }

/-- The cursors at reset: unspecified by 10_state.md R49; zero is a DESIGN CHOICE (log 3). -/
def Cursors.reset : Cursors := { rem := 0, scur := 0, dcur := 0, n := 0, j := 0 }

/-- The operand registers at reset (10_state.md R49). -/
def OperandRegs.reset : OperandRegs :=
  { keyLen := 0, nonceLen := 0, ctrInit := 0, src := 0, dst := 0, len := 0,
    key := Vector.replicate 8 0, nonce := Vector.replicate 3 0 }

/-- The parameters State.reset carries: DMEM_SIZE as the spec's test programs take it (95_test_vectors.md), the two bases
chosen. DESIGN CHOICE (log 1). -/
def resetParams : Params := { dmemSize := 0x1000, regBase := 0, dmemHostBase := 0x10000 }

/-- The machine right after reset (10_state.md R49): nothing listed in DMEM (log 2), nothing scheduled (log 4). -/
def State.reset : State :=
  { st := Vector.replicate 16 0, valid := false, wk := Vector.replicate 16 0, ks := Vector.replicate 64 0,
    phase := .idle, lat := Latches.reset, cur := Cursors.reset,
    irqEn := false, done := false, overrun := false, err := .ok, regs := OperandRegs.reset,
    dmem := [], params := resetParams, race := Race.none, inputs := [], reads := [], draws := 0 }

end Sys2Proof.Machine
end

