-- ==== Sys2Proof/Machine/Flags.lean ====
section
/-! DEFINITION. The status bits, the STATUS and CTRL registers as the host reads and writes them, and the interrupt. -/

namespace Sys2Proof.Machine

/-- STATUS.BUSY: a command runs (10_state.md R35). -/
def State.busy (s : State) : Bool := s.phase != .idle

/-- The 4-bit code of an error kind (60_exceptions.md R230). -/
def ErrCode.code : ErrCode → BitVec 4
  | .ok => 0
  | .keySize => 1
  | .nonceSize => 2
  | .capacity => 3
  | .overlap => 4
  | .illegal => 5
  | .notInit => 6

/-- STATUS as the host reads it (10_state.md R34): bits 31:12 reserved, 11:8 ERR, 7:4 reserved, 3 OVERRUN, 2 DONE,
1 VALID, 0 BUSY. -/
def State.statusWord (s : State) : Word :=
  0#20 ++ s.err.code ++ 0#4 ++ BitVec.ofBool s.overrun ++ BitVec.ofBool s.done ++ BitVec.ofBool s.valid ++
    BitVec.ofBool s.busy

/-- CTRL as the host reads it: bit 0 IRQ_EN, the rest reserved (10_state.md R33). -/
def State.ctrlWord (s : State) : Word := 0#31 ++ BitVec.ofBool s.irqEn

/-- The IRQ output (60_exceptions.md R240). -/
def State.irq (s : State) : Bool := s.irqEn && s.done

/-- A host write to STATUS: DONE (bit 2) and OVERRUN (bit 3) are write-1-to-clear, every other bit is ignored
(10_state.md R34). -/
def State.writeStatus (s : State) (v : Word) : State :=
  { s with done := s.done && !v.getLsbD 2, overrun := s.overrun && !v.getLsbD 3 }

/-- A host write to CTRL: bit 0 is IRQ_EN, the reserved bits are ignored (10_state.md R33). -/
def State.writeCtrl (s : State) (v : Word) : State := { s with irqEn := v.getLsbD 0 }

end Sys2Proof.Machine
end

