-- ==== Sys2Proof/Machine/Operands.lean ====
section
/-! DEFINITION. Where commands take their operands from: the key and nonce bytes of the operand registers, the copy made
at accept, and APPLY's buffer ranges. -/

namespace Sys2Proof.Machine

/-- Key byte `i` (10_state.md R43). -/
def OperandRegs.keyByte (r : OperandRegs) (i : Fin 32) : Byte := byteOf r.key[i.val / 4] (i.val % 4)

/-- Nonce byte `i` (10_state.md R43). -/
def OperandRegs.nonceByte (r : OperandRegs) (i : Fin 12) : Byte := byteOf r.nonce[i.val / 4] (i.val % 4)

/-- The copy of the operands an accept of command word `w` makes (10_state.md R27). -/
def OperandRegs.latch (r : OperandRegs) (w : Word) : Latches :=
  { cmd := w, key := Vector.ofFn r.keyByte, keyLen := r.keyLen, nonce := Vector.ofFn r.nonceByte, nonceLen := r.nonceLen,
    ctr := r.ctrInit, src := r.src, dst := r.dst, len := r.len }

/-- lat.src as the natural APPLY computes with (30_encoding.md R92). -/
def State.srcBase (s : State) : Nat := s.lat.src.toNat

/-- lat.dst as a natural. -/
def State.dstBase (s : State) : Nat := s.lat.dst.toNat

/-- lat.len as a natural. -/
def State.msgLen (s : State) : Nat := s.lat.len.toNat

/-- InRange: `len` bytes from `a` lie in DMEM, on unbounded naturals (44_stream_loop.md R197). -/
def inRange (p : Params) (a len : Nat) : Bool := decide (a + len ≤ p.dmemSize)

/-- PartialOverlap of the source and destination ranges (44_stream_loop.md R196). -/
def partialOverlap (src dst len : Nat) : Bool :=
  decide (src ≠ dst) && decide (src < dst + len) && decide (dst < src + len)

/-- `a` is in the source range of the latched APPLY (20_memory.md R71). -/
def State.inSource (s : State) (a : Nat) : Bool := decide (s.srcBase ≤ a) && decide (a < s.srcBase + s.msgLen)

/-- `a` is in the destination range of the latched APPLY (20_memory.md R71). -/
def State.inDest (s : State) (a : Nat) : Bool := decide (s.dstBase ≤ a) && decide (a < s.dstBase + s.msgLen)

/-- The outcome of APPLY's validation: the code it completes with at once, or none when it goes on to GEN
(44_stream_loop.md R191; the order is 60_exceptions.md R241). -/
def State.applyVerdict (s : State) : Option ErrCode :=
  if s.valid = false then some .notInit
  else if s.msgLen = 0 then some .ok
  else if !inRange s.params s.srcBase s.msgLen || !inRange s.params s.dstBase s.msgLen then some .capacity
  else if partialOverlap s.srcBase s.dstBase s.msgLen then some .overlap
  else none

end Sys2Proof.Machine
end

