-- ==== Sys2Proof/Machine/Ops.lean ====
section
/-! DEFINITION. The shared operations: DMEM reads and writes, accepting a command, completing one, and recording what the
host reads. -/

namespace Sys2Proof.Machine

/-- What a byte of DMEM that nothing has written reads as. DESIGN CHOICE: the platform decides it (20_memory.md R62;
log 2). -/
def unlistedByte : Byte := 0

/-- The byte at an address of DMEM. -/
def Memory.read : Memory → Nat → Byte
  | [], _ => unlistedByte
  | (k, v) :: rest, a => if a = k then v else if a < k then unlistedByte else Memory.read rest a

/-- DMEM with the byte at `a` set to `b`, in canonical form again. -/
def Memory.write : Memory → Nat → Byte → Memory
  | [], a, b => if b = unlistedByte then [] else [(a, b)]
  | (k, v) :: rest, a, b =>
    if a = k then (if b = unlistedByte then rest else (a, b) :: rest)
    else if a < k then (if b = unlistedByte then (k, v) :: rest else (a, b) :: (k, v) :: rest)
    else (k, v) :: Memory.write rest a b

/-- Every address of the list is at least `lo`, addresses strictly rise, and no byte is the unlisted one. -/
def Memory.wfFrom : Nat → Memory → Bool
  | _, [] => true
  | lo, (k, v) :: rest => decide (lo ≤ k) && v != unlistedByte && Memory.wfFrom (k + 1) rest

/-- The canonical form of DMEM. -/
def Memory.wf (m : Memory) : Bool := Memory.wfFrom 0 m

/-- Every listed address is below `size`. -/
def Memory.below (size : Nat) (m : Memory) : Bool := m.all fun c => decide (c.1 < size)

/-- `complete(code)`: the running command ends (00_scope.md R16). This is the only form an error takes: no trap, no saved
register, no vector (60_exceptions.md R233). The races of the command are over (20_memory.md R72). -/
def State.complete (s : State) (code : ErrCode) : State :=
  { s with phase := .idle, done := true, err := code, race := Race.none }

/-- The accepting branch of a CMD write (30_encoding.md R96): operands are latched, DONE and ERR cleared, and the phase
becomes DECODE, which is BUSY. -/
def State.accept (s : State) (w : Word) : State :=
  { s with lat := s.regs.latch w, done := false, err := .ok, phase := .decode,
           race := { hostView := s.dmem, fetched := [], landed := [] } }

/-- The host records what a read returned. -/
def State.record (s : State) (r : HostRead) : State := { s with reads := r :: s.reads }

/-- The source byte as the core sees it: the one it has already fetched, or the one in DMEM (20_memory.md R71). -/
def State.sourceByte (s : State) (a : Nat) : Byte := (s.race.fetched.lookup a).getD (s.dmem.read a)

/-- The core's write of one byte: without effect where a race has given the byte's final value to the host
(20_memory.md R71). -/
def State.coreStore (s : State) (a : Nat) (b : Byte) : State :=
  if a ∈ s.race.landed then s else { s with dmem := s.dmem.write a b }

end Sys2Proof.Machine
end

