-- ==== Sys2Proof/Machine/BlockCommand.lean ====
section
/-! DEFINITION. One run of the block function into the keystream buffer, and the BLOCK command (43_block_function.md). -/

namespace Sys2Proof.Machine

/-- One run of the block function on the state register: the working copy ends with the fed-forward words, and the
keystream buffer takes all 64 bytes (10_state.md R23, R24; 43_block_function.md R167). -/
def State.runBlock (s : State) : State := { s with wk := blockWords s.st, ks := block s.st }

/-- BLOCK: one keystream block, without advancing the counter (43_block_function.md R168). -/
def execBlock (s : State) : Result :=
  if s.valid = false then .next (s.complete .notInit) else .next (s.runBlock.complete .ok)

end Sys2Proof.Machine
end

