-- ==== Sys2Proof/Machine/Initializer.lean ====
section
/-! DEFINITION. The state initializer and the INIT command (41_state_initializer.md). -/

namespace Sys2Proof.Machine

/-- The 16 ASCII bytes of "expand 32-byte k" (41_state_initializer.md R120). -/
def sigma : Vector Byte 16 :=
  #v[0x65, 0x78, 0x70, 0x61, 0x6E, 0x64, 0x20, 0x33, 0x32, 0x2D, 0x62, 0x79, 0x74, 0x65, 0x20, 0x6B]

/-- Constant word `k`: four ASCII bytes packed little-endian (41_state_initializer.md R120; log 15). -/
def constWord (k : Fin 4) : Word := le32 sigma[4 * k.val] sigma[4 * k.val + 1] sigma[4 * k.val + 2] sigma[4 * k.val + 3]

/-- Key word `k`, from four consecutive latched key bytes (41_state_initializer.md R121). -/
def Latches.keyWord (l : Latches) (k : Fin 8) : Word :=
  le32 l.key[4 * k.val] l.key[4 * k.val + 1] l.key[4 * k.val + 2] l.key[4 * k.val + 3]

/-- Nonce word `k`, from four consecutive latched nonce bytes (41_state_initializer.md R123). -/
def Latches.nonceWord (l : Latches) (k : Fin 3) : Word :=
  le32 l.nonce[4 * k.val] l.nonce[4 * k.val + 1] l.nonce[4 * k.val + 2] l.nonce[4 * k.val + 3]

/-- The 16 words a successful INIT writes (10_state.md R21; 41_state_initializer.md R120 to R123). -/
def initWords (l : Latches) : Words :=
  #v[constWord 0, constWord 1, constWord 2, constWord 3,
     l.keyWord 0, l.keyWord 1, l.keyWord 2, l.keyWord 3, l.keyWord 4, l.keyWord 5, l.keyWord 6, l.keyWord 7,
     l.ctr, l.nonceWord 0, l.nonceWord 1, l.nonceWord 2]

/-- INIT: the key length is checked first, then the nonce length, before any state word is written
(41_state_initializer.md R124, R125). -/
def execInit (s : State) : Result :=
  if s.lat.keyLen ≠ Config.keyBytes then .next ({ s with valid := false }.complete .keySize)
  else if s.lat.nonceLen ≠ Config.nonceBytes then .next ({ s with valid := false }.complete .nonceSize)
  else .next ({ s with st := initWords s.lat, valid := true }.complete .ok)

end Sys2Proof.Machine
end

