-- ==== Sys2Proof/Machine/Stream.lean ====
section
/-! DEFINITION. The stream cipher loop: the APPLY command and its core steps (44_stream_loop.md). -/

namespace Sys2Proof.Machine

/-- APPLY's validation, its DECODE step (44_stream_loop.md R191). -/
def State.applyValidate (s : State) : State :=
  match s.applyVerdict with
  | some code => s.complete code
  | none =>
    { s with cur := { s.cur with rem := s.msgLen, scur := s.srcBase, dcur := s.dstBase }, phase := .gen }

/-- GEN: a keystream block from the state before the increment, then CtrInc (44_stream_loop.md R193). -/
def State.genStep (s : State) : State :=
  let s1 := s.runBlock
  { s1 with st := ctrInc s1.st,
            cur := { s1.cur with n := min s1.cur.rem Config.blockBytes, j := 0 },
            phase := .xor }

/-- The end of an XOR step: the byte index moves on; after the block's last byte the cursors do, and the loop goes back to
GEN or completes (44_stream_loop.md R195). -/
def State.endOfByte (s : State) : State :=
  let c := { s.cur with j := s.cur.j + 1 }
  if c.j = c.n then
    let c1 := { c with rem := c.rem - c.n, scur := c.scur + c.n, dcur := c.dcur + c.n }
    if c1.rem = 0 then { s with cur := c1 }.complete .ok else { s with cur := c1, phase := .gen }
  else { s with cur := c }

/-- XOR: one source byte is read, then one destination byte written (44_stream_loop.md R194, then R195). -/
def State.xorStep (s : State) : Result :=
  let src := s.cur.scur + s.cur.j
  let dst := s.cur.dcur + s.cur.j
  if h : s.cur.j < 64 then
    if s.params.dmemSize ≤ src then .fault (.dmemOutOfRange src)
    else if s.params.dmemSize ≤ dst then .fault (.dmemOutOfRange dst)
    else .next (s.coreStore dst (s.sourceByte src ^^^ s.ks[s.cur.j])).endOfByte
  else .refused (.noKeystreamByte s.cur.j)

/-- APPLY: the core step of the stream loop that the phase selects (10_state.md R25, 44_stream_loop.md R190). An accepted
APPLY begins with the validation; no rule gives APPLY a step in IDLE, where it is taken as one that begins (log 20). -/
def execApply (s : State) : Result :=
  match s.phase with
  | .idle => .next s.applyValidate
  | .decode => .next s.applyValidate
  | .gen => .next s.genStep
  | .xor => s.xorStep

end Sys2Proof.Machine
end

