-- ==== Sys2Proof/Machine/CoreAgent.lean ====
section
/-! DEFINITION. The core's step, selected by the phase (10_state.md R25, R26). -/

namespace Sys2Proof.Machine

/-- DECODE: the latched command word is decoded and its command runs; an illegal word completes with ILLEGAL
(30_encoding.md R97). -/
def State.decodeStep (s : State) : Result :=
  match decode s.lat.cmd with
  | .ok i => exec i s
  | .reject _ => .next (s.complete .illegal)

/-- One core step. In IDLE none is enabled and nothing happens (10_state.md R26, 60_exceptions.md R250); GEN and XOR are
steps of APPLY, the only command with such phases. -/
def coreStep (s : State) : Result :=
  match s.phase with
  | .idle => .next s
  | .decode => s.decodeStep
  | .gen => exec .apply s
  | .xor => exec .apply s

/-- A core step whose DMEM access the platform refuses: a fault in XOR, the only phase that accesses DMEM
(20_memory.md R60; 93_implementation_defined.md U14; log 9). -/
def coreStepDmemRefused (s : State) : Result :=
  match s.phase with
  | .xor => .fault .dmemRefused
  | .idle => coreStep s
  | .decode => coreStep s
  | .gen => coreStep s

end Sys2Proof.Machine
end

