-- ==== Sys2Proof/Machine/HostMemory.lean ====
section
/-! DEFINITION. The host's DMEM accesses, with the races of 20_memory.md R71 against a running APPLY (log 7). -/

namespace Sys2Proof.Machine

/-- An APPLY runs on its active ranges: it is in its loop, or it is accepted and its validation will pass (log 25). -/
def State.applyRunning (s : State) : Bool :=
  match s.phase with
  | .idle => false
  | .decode => decide (decode s.lat.cmd = .ok .apply) && s.applyVerdict.isNone
  | .gen => true
  | .xor => true

/-- Where the current block begins in the message. -/
def State.blockBase (s : State) : Nat :=
  match s.phase with
  | .idle => 0
  | .decode => 0
  | .gen => s.cur.dcur - s.dstBase
  | .xor => s.cur.dcur - s.dstBase

/-- How many bytes of the message the core has processed. -/
def State.applied (s : State) : Nat :=
  match s.phase with
  | .idle => 0
  | .decode => 0
  | .gen => s.blockBase
  | .xor => s.blockBase + s.cur.j

/-- The keystream byte for message byte `i` that the core has not processed yet: from the buffer if its block has been
generated, else from the block the counter will reach (44_stream_loop.md R193, R199). -/
def State.pendingKeystream (s : State) (i : Nat) : Byte :=
  match s.phase with
  | .xor =>
    if i < s.blockBase + 64 then s.ks[(i - s.blockBase) % 64]'(Nat.mod_lt _ (by decide))
    else keystreamByte s.st (i - s.blockBase - 64)
  | .gen => keystreamByte s.st (i - s.blockBase)
  | .decode => keystreamByte s.st i
  | .idle => keystreamByte s.st i

/-- The byte the core will write for message byte `i` (44_stream_loop.md R194). -/
def State.pendingByte (s : State) (i : Nat) : Byte := s.sourceByte (s.srcBase + i) ^^^ s.pendingKeystream i

/-- The core has fetched the source byte at `a`: from now on it sees the value the byte has now. -/
def State.fetch (s : State) (a : Nat) : State :=
  { s with race := { s.race with fetched := (a, s.sourceByte a) :: s.race.fetched } }

/-- A host read of a destination byte while APPLY runs: the value before APPLY, or the value the core writes
(20_memory.md R71). Where the core has not written the byte yet, its value is fixed by fetching its source byte now. -/
def State.racingRead (s : State) (a : Nat) : State :=
  let s1 := { s with draws := s.draws + 1 }
  if Config.freeBit s.draws then s1.record (.dmem a (s.race.hostView.read a))
  else if a - s.dstBase < s.applied then s1.record (.dmem a (s.dmem.read a))
  else (s1.fetch (s.srcBase + (a - s.dstBase))).record (.dmem a (s.pendingByte (a - s.dstBase)))

/-- A host read of one byte of DMEM. A byte outside the active destination range does not race (20_memory.md R71). -/
def hostDmemRead (a : Nat) (s : State) : Result :=
  if s.params.dmemSize ≤ a then .fault (.dmemOutOfRange a)
  else if s.applyRunning && s.inDest a then .next (s.racingRead a)
  else .next (s.record (.dmem a (s.dmem.read a)))

/-- The host's record of its own write, in the view without the core's writes. -/
def State.hostSees (s : State) (a : Nat) (b : Byte) : State :=
  { s with race := { s.race with hostView := s.race.hostView.write a b } }

/-- The host's own write of a byte: into DMEM, and while a command runs also into the view without the core's writes. -/
def State.hostStore (s : State) (a : Nat) (b : Byte) : State :=
  let s1 := { s with dmem := s.dmem.write a b }
  if s.busy then s1.hostSees a b else s1

/-- The destination bytes whose final value is the host's. -/
def State.setLanded (s : State) (l : List Nat) : State := { s with race := { s.race with landed := l } }

/-- The source side of a racing host write: a byte the core has not read yet is seen by the core or not
(20_memory.md R71). -/
def State.racingSource (s : State) (a : Nat) (seen : Bool) : State :=
  if s.inSource a && decide (s.applied ≤ a - s.srcBase) && !seen then s.fetch a else s

/-- The destination side of a racing host write: the final value is the host's or the core's (20_memory.md R71). A byte
the core has not written yet holds the host's value until the core's write, which lands unless the host's value is the
final one. -/
def State.racingDest (s : State) (a : Nat) (b : Byte) (hostFinal : Bool) : State :=
  if s.inDest a then
    let written := decide (a - s.dstBase < s.applied)
    if hostFinal then
      if written then s.hostStore a b else (s.hostStore a b).setLanded (a :: s.race.landed)
    else
      if written then s.hostSees a b else (s.hostStore a b).setLanded (s.race.landed.filter (· ≠ a))
  else s.hostStore a b

/-- A racing host write draws its two outcomes: whether the core sees the byte, and whose value is final. -/
def State.racingWrite (s : State) (a : Nat) (b : Byte) : State :=
  ({ s with draws := s.draws + 2 }.racingSource a (Config.freeBit s.draws)).racingDest a b
    (Config.freeBit (s.draws + 1))

/-- A host write of one byte of DMEM. A byte outside both active ranges does not race (20_memory.md R71). -/
def hostDmemWrite (a : Nat) (b : Byte) (s : State) : Result :=
  if s.params.dmemSize ≤ a then .fault (.dmemOutOfRange a)
  else if s.applyRunning && (s.inSource a || s.inDest a) then .next (s.racingWrite a b)
  else .next (s.hostStore a b)

end Sys2Proof.Machine
end

