-- ==== Sys2Proof/Machine/HostRegisters.lean ====
section
/-! DEFINITION. The host's register accesses (10_state.md R30 to R48). -/

namespace Sys2Proof

/-- The byte offset of a register (10_state.md R30). -/
def Reg.offset : Reg → Nat
  | .ctrl => 0x000
  | .status => 0x004
  | .cmd => 0x008
  | .keyLen => 0x00C
  | .nonceLen => 0x010
  | .ctrInit => 0x014
  | .src => 0x018
  | .dst => 0x01C
  | .len => 0x020
  | .key k => 0x040 + 4 * k.val
  | .nonce k => 0x060 + 4 * k.val
  | .state k => 0x080 + 4 * k.val
  | .ks k => 0x0C0 + 4 * k.val

/-- The register at an offset that is a multiple of 4; none where the space is reserved (10_state.md R30, R44). -/
def Reg.ofOffset (off : Nat) : Option Reg :=
  if off = 0x000 then some .ctrl
  else if off = 0x004 then some .status
  else if off = 0x008 then some .cmd
  else if off = 0x00C then some .keyLen
  else if off = 0x010 then some .nonceLen
  else if off = 0x014 then some .ctrInit
  else if off = 0x018 then some .src
  else if off = 0x01C then some .dst
  else if off = 0x020 then some .len
  else if 0x040 ≤ off ∧ off ≤ 0x05C then some (.key (Fin.ofNat 8 ((off - 0x040) / 4)))
  else if 0x060 ≤ off ∧ off ≤ 0x068 then some (.nonce (Fin.ofNat 3 ((off - 0x060) / 4)))
  else if 0x080 ≤ off ∧ off ≤ 0x0BC then some (.state (Fin.ofNat 16 ((off - 0x080) / 4)))
  else if 0x0C0 ≤ off ∧ off ≤ 0x0FC then some (.ks (Fin.ofNat 16 ((off - 0x0C0) / 4)))
  else none

end Sys2Proof

namespace Sys2Proof.Machine

/-- A register access is an aligned 32-bit access inside the window (10_state.md R31, 20_memory.md R61; log 10). -/
def regAccessOk (off size : Nat) : Bool := size == 4 && off % 4 == 0 && decide (off < Config.regWindow)

/-- KSk: four bytes of the keystream buffer packed little-endian (10_state.md R46). -/
def State.ksWord (s : State) (k : Fin 16) : Word :=
  le32 s.ks[4 * k.val] s.ks[4 * k.val + 1] s.ks[4 * k.val + 2] s.ks[4 * k.val + 3]

/-- The value of a register at a host read. CMD reads 0 (10_state.md R40); STATE and KS read their views while BUSY = 0
and the value of a fresh free draw while BUSY = 1 (R45, R46, R47). -/
def State.regValue (s : State) : Reg → Word
  | .ctrl => s.ctrlWord
  | .status => s.statusWord
  | .cmd => 0
  | .keyLen => s.regs.keyLen
  | .nonceLen => s.regs.nonceLen
  | .ctrInit => s.regs.ctrInit
  | .src => s.regs.src
  | .dst => s.regs.dst
  | .len => s.regs.len
  | .key k => s.regs.key[k]
  | .nonce k => s.regs.nonce[k]
  | .state k => if s.busy then Config.freeWord s.draws else s.st[k]
  | .ks k => if s.busy then Config.freeWord s.draws else s.ksWord k

/-- How many free values a read of a register draws. -/
def State.regDraws (s : State) : Reg → Nat
  | .state _ => if s.busy then 1 else 0
  | .ks _ => if s.busy then 1 else 0
  | _ => 0

/-- A host write to CMD: accepted while BUSY = 0; while BUSY = 1 dropped, with OVERRUN set and nothing else changed
(30_encoding.md R96, 60_exceptions.md R236). -/
def State.issue (s : State) (w : Word) : State := if s.busy then { s with overrun := true } else s.accept w

/-- A host write to a register. Writes to the read views are ignored (10_state.md R44); the operand registers store the
value at once, whether a command runs or not (R41 to R43, R48). -/
def State.writeReg (s : State) (v : Word) : Reg → State
  | .ctrl => s.writeCtrl v
  | .status => s.writeStatus v
  | .cmd => s.issue v
  | .keyLen => { s with regs := { s.regs with keyLen := v } }
  | .nonceLen => { s with regs := { s.regs with nonceLen := v } }
  | .ctrInit => { s with regs := { s.regs with ctrInit := v } }
  | .src => { s with regs := { s.regs with src := v } }
  | .dst => { s with regs := { s.regs with dst := v } }
  | .len => { s with regs := { s.regs with len := v } }
  | .key k => { s with regs := { s.regs with key := s.regs.key.set k v } }
  | .nonce k => { s with regs := { s.regs with nonce := s.regs.nonce.set k v } }
  | .state _ => s
  | .ks _ => s

/-- A host read of `size` bytes at a register offset: reserved space reads 0 (10_state.md R44); an access that is not an
aligned 32-bit one is a host bus fault (R31). -/
def hostRegRead (off size : Nat) (s : State) : Result :=
  if regAccessOk off size then
    match Reg.ofOffset off with
    | some r => .next ({ s with draws := s.draws + s.regDraws r }.record (.reg off (s.regValue r)))
    | none => .next (s.record (.reg off 0))
  else .fault (.hostBusFault off size)

/-- A host write of `size` bytes at a register offset: a write to reserved space is ignored (10_state.md R44); an access
that is not an aligned 32-bit one is a host bus fault and changes nothing (R31). -/
def hostRegWrite (off size : Nat) (v : Word) (s : State) : Result :=
  if regAccessOk off size then
    match Reg.ofOffset off with
    | some r => .next (s.writeReg v r)
    | none => .next s
  else .fault (.hostBusFault off size)

/-- WAIT: read STATUS, and go on reading until BUSY = 0, the core taking a step between two reads (30_encoding.md R99;
log 21). -/
def hostWait (s : State) : Result :=
  let s1 := s.record (.reg Reg.status.offset s.statusWord)
  if s.busy then .next { s1 with inputs := .core :: .wait :: s1.inputs } else .next s1

end Sys2Proof.Machine
end

