-- ==== Sys2Proof/Machine/HostBus.lean ====
section
/-! DEFINITION. Host bus accesses by host address: routing to the register window at REG_BASE or to DMEM at
DMEM_HOST_BASE (10_state.md R30, 20_memory.md R62). -/

namespace Sys2Proof.Machine

/-- Some byte of the access lies in the register window. -/
def touchesWindow (p : Params) (addr size : Nat) : Bool :=
  decide (addr < p.regBase + Config.regWindow) && decide (p.regBase < addr + size)

/-- Some byte of the access lies in DMEM's host range. -/
def touchesDmem (p : Params) (addr size : Nat) : Bool :=
  decide (addr < p.dmemHostBase + p.dmemSize) && decide (p.dmemHostBase < addr + size)

/-- Some byte of the access lies in both windows, which happens only when they overlap (log 11). -/
def touchesBoth (p : Params) (addr size : Nat) : Bool :=
  decide (max (max addr p.regBase) p.dmemHostBase <
    min (min (addr + size) (p.regBase + Config.regWindow)) (p.dmemHostBase + p.dmemSize))

/-- Run the second step if the first answers a next state. -/
def andThen (r : Result) (f : State → Result) : Result :=
  match r with
  | .next s => f s
  | .fault e => .fault e
  | .refused e => .refused e

/-- Byte reads of the DMEM bytes of an access; a byte outside DMEM's host range is not the core's (log 12). -/
def hostBusDmemRead : Nat → Nat → State → Result
  | _, 0, s => .next s
  | addr, size + 1, s =>
    andThen
      (if touchesDmem s.params addr 1 then hostDmemRead (addr - s.params.dmemHostBase) s else .next s)
      (hostBusDmemRead (addr + 1) size)

/-- Byte writes of the DMEM bytes of an access, at ascending addresses (20_memory.md R66; log 23). -/
def hostBusDmemWrite : Nat → List Byte → State → Result
  | _, [], s => .next s
  | addr, b :: bytes, s =>
    andThen
      (if touchesDmem s.params addr 1 then hostDmemWrite (addr - s.params.dmemHostBase) b s else .next s)
      (hostBusDmemWrite (addr + 1) bytes)

/-- The 32-bit value of a register write, the first byte at the lowest offset (10_state.md R32). -/
def wordOfBusBytes : List Byte → Word
  | [b0, b1, b2, b3] => le32 b0 b1 b2 b3
  | _ => 0

/-- A host bus read. An access that touches the register window is a register access, and a host bus fault unless it is
an aligned 32-bit one inside the window (10_state.md R31; log 24). An access to neither window is not the core's
(log 12). -/
def hostBusRead (addr size : Nat) (s : State) : Result :=
  if touchesBoth s.params addr size then .refused (.ambiguousHostAddress addr)
  else if touchesWindow s.params addr size then
    if s.params.regBase ≤ addr then hostRegRead (addr - s.params.regBase) size s else .fault (.hostBusFault 0 size)
  else hostBusDmemRead addr size s

/-- A host bus write, routed as a bus read is. -/
def hostBusWrite (addr : Nat) (bytes : List Byte) (s : State) : Result :=
  if touchesBoth s.params addr bytes.length then .refused (.ambiguousHostAddress addr)
  else if touchesWindow s.params addr bytes.length then
    if s.params.regBase ≤ addr then hostRegWrite (addr - s.params.regBase) bytes.length (wordOfBusBytes bytes) s
    else .fault (.hostBusFault 0 bytes.length)
  else hostBusDmemWrite addr bytes s

end Sys2Proof.Machine
end

