-- ==== Sys2Proof/Machine/Reset.lean ====
section
/-! DEFINITION. The reset event (70_reset_and_hazards.md R260, R261). -/

namespace Sys2Proof.Machine

/-- DMEM with `len` bytes from `base` on set to the free bytes of the draws from `d` on. -/
def fillFree (m : Memory) (base d : Nat) : Nat → Memory
  | 0 => m
  | len + 1 => (fillFree m base d len).write (base + len) (Config.freeByte (d + len))

/-- DMEM after a reset: unchanged, but that every byte of the destination range of an abandoned APPLY is unknown
(70_reset_and_hazards.md R261; 93_implementation_defined.md U8). -/
def State.dmemAfterReset (s : State) : Memory :=
  if s.applyRunning then fillFree s.dmem s.dstBase s.draws s.msgLen else s.dmem

/-- How many free bytes a reset draws. -/
def State.resetDraws (s : State) : Nat := if s.applyRunning then s.msgLen else 0

/-- Reset: every piece of the core's state takes its reset value (10_state.md R49) and a running command is abandoned:
it does not complete (70_reset_and_hazards.md R260, R261). -/
def State.coreReset (s : State) : State :=
  { s with st := Vector.replicate 16 0, valid := false, wk := Vector.replicate 16 0, ks := Vector.replicate 64 0,
           phase := .idle, lat := Latches.reset, cur := Cursors.reset,
           irqEn := false, done := false, overrun := false, err := .ok, regs := OperandRegs.reset,
           dmem := s.dmemAfterReset, race := Race.none, draws := s.draws + s.resetDraws }

end Sys2Proof.Machine
end

