-- ==== Sys2Proof/Machine/Agents.lean ====
section
/-! DEFINITION. One event: a step of the core, a step of the host, or a reset (00_scope.md R9, R17). -/

namespace Sys2Proof.Machine

/-- What one event does. -/
def runEvent (e : Event) (s : State) : Result :=
  match e with
  | .core => coreStep s
  | .coreDmemRefused => coreStepDmemRefused s
  | .regRead off size => hostRegRead off size s
  | .regWrite off size v => hostRegWrite off size v s
  | .dmemRead a => hostDmemRead a s
  | .dmemWrite a b => hostDmemWrite a b s
  | .busRead addr size => hostBusRead addr size s
  | .busWrite addr bytes => hostBusWrite addr bytes s
  | .wait => hostWait s
  | .reset => .next s.coreReset

/-- Let the very next step be the core's. When nothing is scheduled it already is. -/
def State.coreNext (s : State) : State :=
  match s.inputs with
  | [] => s
  | e :: rest => { s with inputs := .core :: e :: rest }

/-- The command word of bits numbered as the opcode table numbers them (30_encoding.md R90). -/
def fetchWord (nbits w : Nat) : Word := BitVec.ofNat 32 (w % 2 ^ nbits)

end Sys2Proof.Machine
end

