-- ==== Sys2Proof/Machine/Step.lean ====
section
/-! DEFINITION. One step of the machine: the oldest scheduled event, or a core step when nothing is scheduled. -/

namespace Sys2Proof.Machine

/-- One step (00_scope.md R17). An event leaves the schedule when it happens; with nothing scheduled the core runs alone,
which is the fairness of 70_reset_and_hazards.md R275 (log 4). -/
def step (s : State) : Host.Outcome State Fault Refusal :=
  match s.inputs with
  | [] => coreStep s
  | e :: rest => runEvent e { s with inputs := rest }

/-- The command word stored where the next step decodes it: accepted as by a CMD write to an idle core (30_encoding.md
R96), with the next step the core's (log 5). -/
def State.withFetchWord (s : State) (nbits w : Nat) : State := (s.accept (fetchWord nbits w)).coreNext

end Sys2Proof.Machine
end

