-- ==== Sys2Proof/Machine/HostSyntax.lean ====
section
/-! DEFINITION. Host program lines as the bus operations they stand for (30_encoding.md R98, R99, R100). -/

namespace Sys2Proof.Machine

/-- `WR NAME, v`: one aligned 32-bit write (30_encoding.md R98). -/
def writeEvent (r : Reg) (v : Word) : Event := .regWrite r.offset 4 v

/-- `RD NAME`: one aligned 32-bit read. -/
def readEvent (r : Reg) : Event := .regRead r.offset 4

/-- `MWR a, [b0 b1 ...]`: one byte write per byte. -/
def memWriteEvents : Nat → List Byte → List Event
  | _, [] => []
  | a, b :: bytes => .dmemWrite a b :: memWriteEvents (a + 1) bytes

/-- `MRD a, n`: n byte reads. -/
def memReadEvents : Nat → Nat → List Event
  | _, 0 => []
  | a, n + 1 => .dmemRead a :: memReadEvents (a + 1) n

/-- Register word `k` of a key, packed little-endian (30_encoding.md R99). -/
def keyRegWord (k : Vector Byte 32) (i : Fin 8) : Word :=
  le32 k[4 * i.val] k[4 * i.val + 1] k[4 * i.val + 2] k[4 * i.val + 3]

/-- Register word `k` of a nonce. -/
def nonceRegWord (n : Vector Byte 12) (i : Fin 3) : Word :=
  le32 n[4 * i.val] n[4 * i.val + 1] n[4 * i.val + 2] n[4 * i.val + 3]

/-- The bus operations of a program line (30_encoding.md R98, R99). -/
def lineEvents : HostLine → List Event
  | .wr r v => [writeEvent r v]
  | .rd r => [readEvent r]
  | .mwr a bytes => memWriteEvents a bytes
  | .mrd a n => memReadEvents a n
  | .init => [writeEvent .cmd (encode .init)]
  | .block => [writeEvent .cmd (encode .block)]
  | .apply => [writeEvent .cmd (encode .apply)]
  | .wait => [.wait]
  | .loadKey k =>
    [writeEvent (.key 0) (keyRegWord k 0), writeEvent (.key 1) (keyRegWord k 1), writeEvent (.key 2) (keyRegWord k 2),
     writeEvent (.key 3) (keyRegWord k 3), writeEvent (.key 4) (keyRegWord k 4), writeEvent (.key 5) (keyRegWord k 5),
     writeEvent (.key 6) (keyRegWord k 6), writeEvent (.key 7) (keyRegWord k 7), writeEvent .keyLen Config.keyBytes]
  | .loadNonce n =>
    [writeEvent (.nonce 0) (nonceRegWord n 0), writeEvent (.nonce 1) (nonceRegWord n 1),
     writeEvent (.nonce 2) (nonceRegWord n 2), writeEvent .nonceLen Config.nonceBytes]
  | .clrDone => [writeEvent .status 0x4]

/-- The bus operations of a host program. -/
def hostProgram (lines : List HostLine) : List Event := lines.flatMap lineEvents

end Sys2Proof.Machine
end

