-- ==== Sys2Proof/Safety.lean ====
section
/-! DEFINITION. What a sound state is, and which host events respect the host's duties. -/

namespace Sys2Proof.Machine

/-- The two buffers of a running APPLY passed its validation (44_stream_loop.md R191, R196, R197). -/
def State.buffersOk (s : State) : Bool :=
  inRange s.params s.srcBase s.msgLen && inRange s.params s.dstBase s.msgLen &&
    !partialOverlap s.srcBase s.dstBase s.msgLen

/-- The cursors of an APPLY in its loop: both move together, and what is done is whole blocks (44_stream_loop.md R195,
10_state.md R28). -/
def State.cursorsOk (s : State) : Bool :=
  decide (0 < s.cur.rem) && decide (s.cur.rem ≤ s.msgLen) && decide ((s.msgLen - s.cur.rem) % 64 = 0) &&
    decide (s.cur.scur + s.cur.rem = s.srcBase + s.msgLen) && decide (s.cur.dcur + s.cur.rem = s.dstBase + s.msgLen)

/-- The loop of APPLY: it runs on a valid cipher and on checked buffers. -/
def State.loopOk (s : State) : Bool :=
  s.valid && decide (decode s.lat.cmd = .ok .apply) && s.buffersOk && s.cursorsOk

/-- What each phase promises (10_state.md R26, R28, R37, R39). -/
def State.phaseOk (s : State) : Bool :=
  match s.phase with
  | .idle => decide (s.race = Race.none)
  | .decode => !s.done && decide (s.err = .ok)
  | .gen => !s.done && decide (s.err = .ok) && s.loopOk
  | .xor => !s.done && decide (s.err = .ok) && s.loopOk && decide (s.cur.n = min s.cur.rem 64) && decide (s.cur.j < s.cur.n)

/-- A sound state: DMEM in canonical form and inside DMEM_SIZE, parameters within their constraints, what the phase
promises, and the record of DMEM without the core's writes (log 7) in canonical form. -/
def State.Inv (s : State) : Prop :=
  s.dmem.wf = true ∧ s.dmem.below s.params.dmemSize = true ∧ s.params.wf = true ∧ s.phaseOk = true ∧
    s.race.hostView.wf = true

/-- The next step is the core's: nothing is scheduled, or the oldest event is a core step (log 4). -/
def State.coreTakesStep (s : State) : Prop :=
  s.inputs = [] ∨ ∃ rest : List Event, s.inputs = .core :: rest ∨ s.inputs = .coreDmemRefused :: rest

/-- No race has happened in the running command. -/
def State.raceFree (s : State) : Prop := s.race.fetched = [] ∧ s.race.landed = []

/-- An APPLY is accepted and will run to its end undisturbed: it is in DECODE, VALID = 1, LEN > 0, both ranges lie in DMEM
and do not partly overlap (44_stream_loop.md R191), nothing else is scheduled, no race has happened, and DMEM is in
canonical form. -/
def State.applyReady (s : State) : Prop :=
  s.phase = .decode ∧ s.lat.cmd = 0x00000003 ∧ s.valid = true ∧ 0 < s.msgLen ∧
    s.srcBase + s.msgLen ≤ s.params.dmemSize ∧ s.dstBase + s.msgLen ≤ s.params.dmemSize ∧
    ¬(s.srcBase ≠ s.dstBase ∧ s.srcBase < s.dstBase + s.msgLen ∧ s.dstBase < s.srcBase + s.msgLen) ∧
    s.inputs = [] ∧ s.raceFree ∧ s.dmem.wf = true

/-- The core steps an accepted APPLY of `len` bytes takes: validation, one GEN per block, one XOR per byte
(10_state.md R28, 70_reset_and_hazards.md R274). -/
def applySteps (len : Nat) : Nat := 1 + (len + 63) / 64 + len

/-- A host event that respects the host's duties: aligned 32-bit register accesses (10_state.md R31), no CMD write while
BUSY (70_reset_and_hazards.md R268), DMEM accesses inside DMEM and outside the active ranges of a running APPLY (R271). -/
def Event.respects (s : State) : Event → Bool
  | .core => true
  | .coreDmemRefused => false
  | .regRead off size => regAccessOk off size
  | .regWrite off size _ => regAccessOk off size && !(s.busy && decide (Reg.ofOffset off = some .cmd))
  | .dmemRead a => decide (a < s.params.dmemSize) && !(s.applyRunning && (s.inSource a || s.inDest a))
  | .dmemWrite a _ => decide (a < s.params.dmemSize) && !(s.applyRunning && (s.inSource a || s.inDest a))
  | .busRead _ _ => false
  | .busWrite _ _ => false
  | .wait => true
  | .reset => true

end Sys2Proof.Machine
end

