-- ==== Sys2Proof/Certificates/Slice0/Obligations.lean ====
section
/-! DEFINITION. The statements for the provers, from the numbered rules of the spec. -/

open Sys2Proof Sys2Proof.Machine

/-! ### Command words -/

/-- The opcode map (30_encoding.md R93): word by word. -/
def Obligations.OpcodeMapDecodes : Prop :=
  decode 0x00000001 = .ok .init ∧ decode 0x00000002 = .ok .block ∧ decode 0x00000003 = .ok .apply ∧
    decode 0x00000000 = .reject .reservedOpcode ∧
    ∀ k : Fin 12, decode (BitVec.ofNat 32 (4 + k.val)) = .reject .reservedOpcode

/-- Each word has one meaning and each command one word: a word decodes to a command exactly when it is that command's
word, and the bytes of a command's word decode to it, leaving the bytes after it. -/
def Obligations.DecodeAndEncodeAgree : Prop :=
  (∀ (w : Word) (i : Instr), decode w = .ok i ↔ w = encode i) ∧
    ∀ (i : Instr) (rest : List Byte), decodeBytes (bytesOfWord (encode i) ++ rest) = (.ok i, rest)

/-- An illegal word in DECODE completes with ILLEGAL and nothing else changes (30_encoding.md R94, R97; 60_exceptions.md
R237). -/
def Obligations.IllegalWordCompletesIllegal : Prop :=
  ∀ s : State, s.inputs = [] → s.phase = .decode →
    (s.lat.cmd.extractLsb' 4 28 ≠ 0 ∨ s.lat.cmd.extractLsb' 0 4 = 0 ∨ 4 ≤ (s.lat.cmd.extractLsb' 0 4).toNat) →
    step s = .next { s with phase := .idle, done := true, err := .illegal, race := Race.none }

/-- One step: the oldest scheduled event, or with nothing scheduled a core step; that the interleaving is a schedule whose
end leaves the core alone is the model's (log 4, DEDUCED). A core step runs the decoded command: in DECODE it is exec of
the command the latched word decodes to, in GEN and XOR it is APPLY's, and in IDLE nothing happens (10_state.md R25,
30_encoding.md R97, 60_exceptions.md R250); that GEN and XOR are APPLY's whatever word is latched is the model's choice
(log 22). -/
def Obligations.StepRunsTheDecodedCommand : Prop :=
  (∀ (s : State) (e : Event) (rest : List Event), s.inputs = e :: rest →
    step s = runEvent e { s with inputs := rest }) ∧
  (∀ s : State, s.inputs = [] → step s = runEvent .core s) ∧
  (∀ (s : State) (i : Instr), s.phase = .decode → decode s.lat.cmd = .ok i → runEvent .core s = exec i s) ∧
  (∀ s : State, s.phase = .gen ∨ s.phase = .xor → runEvent .core s = exec .apply s) ∧
  (∀ s : State, s.phase = .idle → runEvent .core s = .next s)

/-! ### INIT -/

/-- INIT: a wrong key length ends it with KEYSIZE, else a wrong nonce length with NONCESIZE, VALID cleared and nothing else
changed but STATUS; otherwise it writes the constants, the key words, the counter and the nonce words, sets VALID and
completes with OK, and nothing else changes (41_state_initializer.md R120 to R124). The numeric values of the constants
rest on log 15. -/
def Obligations.InitBuildsTheCipherState : Prop :=
  ∀ s : State,
    (s.lat.keyLen ≠ 32 →
      exec .init s =
        .next { s with valid := false, phase := .idle, done := true, err := .keySize, race := Race.none }) ∧
    (s.lat.keyLen = 32 → s.lat.nonceLen ≠ 12 →
      exec .init s =
        .next { s with valid := false, phase := .idle, done := true, err := .nonceSize, race := Race.none }) ∧
    (s.lat.keyLen = 32 → s.lat.nonceLen = 12 →
      ∃ w : Words,
        exec .init s =
          .next { s with st := w, valid := true, phase := .idle, done := true, err := .ok, race := Race.none } ∧
        w[0] = 0x61707865 ∧ w[1] = 0x3320646E ∧ w[2] = 0x79622D32 ∧ w[3] = 0x6B206574 ∧
        (∀ k : Fin 8, w[4 + k.val] =
          s.lat.key[4 * k.val + 3] ++ s.lat.key[4 * k.val + 2] ++ s.lat.key[4 * k.val + 1] ++ s.lat.key[4 * k.val]) ∧
        w[12] = s.lat.ctr ∧
        (∀ k : Fin 3, w[13 + k.val] =
          s.lat.nonce[4 * k.val + 3] ++ s.lat.nonce[4 * k.val + 2] ++ s.lat.nonce[4 * k.val + 1] ++
            s.lat.nonce[4 * k.val]))

/-! ### The quarter round and the block function -/

/-- The four steps of the quarter round on each of the eight tuples (42_quarter_round.md R140), with the library's own
rotation. -/
def Obligations.QuarterRoundComputesTheFourSteps : Prop :=
  ∀ (t : QRTuple) (w : Words),
    let a1 := w[qrA t] + w[qrB t]
    let d1 := (w[qrD t] ^^^ a1).rotateLeft 16
    let c1 := w[qrC t] + d1
    let b1 := (w[qrB t] ^^^ c1).rotateLeft 12
    let a2 := a1 + b1
    let d2 := (d1 ^^^ a2).rotateLeft 8
    let c2 := c1 + d2
    let b2 := (b1 ^^^ c2).rotateLeft 7
    (quarterRound t w)[qrA t] = a2 ∧ (quarterRound t w)[qrB t] = b2 ∧ (quarterRound t w)[qrC t] = c2 ∧
      (quarterRound t w)[qrD t] = d2

/-- The quarter round changes only its four slots (42_quarter_round.md R142). -/
def Obligations.QuarterRoundLeavesOtherWords : Prop :=
  ∀ (t : QRTuple) (w : Words) (i : Fin 16), i ≠ qrA t → i ≠ qrB t → i ≠ qrC t → i ≠ qrD t →
    (quarterRound t w)[i] = w[i]

/-- The quarter round is undone by its steps inverted in reverse order (42_quarter_round.md R145). -/
def Obligations.QuarterRoundIsInvertible : Prop :=
  ∀ (t : QRTuple) (w : Words),
    let v := quarterRound t w
    let b1 := v[qrB t].rotateRight 7 ^^^ v[qrC t]
    let c1 := v[qrC t] - v[qrD t]
    let d1 := v[qrD t].rotateRight 8 ^^^ v[qrA t]
    let a1 := v[qrA t] - b1
    let b0 := b1.rotateRight 12 ^^^ c1
    let c0 := c1 - d1
    let d0 := d1.rotateRight 16 ^^^ a1
    let a0 := a1 - b0
    w[qrA t] = a0 ∧ w[qrB t] = b0 ∧ w[qrC t] = c0 ∧ w[qrD t] = d0

/-- The tuples of one round touch disjoint slots, so the four quarter rounds of a column round, and those of a diagonal
round, give the same result in any order (42_quarter_round.md R143). -/
def Obligations.RoundOrderDoesNotMatter : Prop :=
  ∀ (w : Words) (l : List QRTuple),
    (l.Perm [.col0, .col1, .col2, .col3] → l.foldl (fun v t => quarterRound t v) w = columnRound w) ∧
    (l.Perm [.diag0, .diag1, .diag2, .diag3] → l.foldl (fun v t => quarterRound t v) w = diagonalRound w)

/-- A quarter round on indices outside the eight tuples is refused rather than given a value; on a tuple it has that
tuple's value (42_quarter_round.md R141, R144). -/
def Obligations.QuarterRoundOutsideTheTuplesIsRefused : Prop :=
  (∀ (a b c d : Nat) (w : Words), qrIndicesWf a b c d = false → quarterRound? a b c d w = none) ∧
  (∀ (t : QRTuple) (w : Words), quarterRound? (qrA t).val (qrB t).val (qrC t).val (qrD t).val w = some (quarterRound t w))

/-- The permutation is 80 quarter rounds: ten times the four columns and then the four diagonals, in the listed order
(43_block_function.md R160 to R162; the count of ten is R163's, which the spec derives, and 90_conflicts.md C1's). -/
def Obligations.PermutationIsEightyQuarterRounds : Prop :=
  ∀ w : Words,
    permute w =
      ((List.replicate 10 [QRTuple.col0, .col1, .col2, .col3, .diag0, .diag1, .diag2, .diag3]).flatten).foldl
        (fun v t => quarterRound t v) w

/-- Byte j of the keystream block is byte (j mod 4), little-endian, of output word (j div 4), and each output word is the
permuted word plus the original one (43_block_function.md R165, R166). -/
def Obligations.KeystreamBlockBytes : Prop :=
  ∀ (s : Words) (j : Fin 64),
    (block s)[j] = ((permute s)[j.val / 4] + s[j.val / 4]).extractLsb' (8 * (j.val % 4)) 8

/-- BLOCK: NOT_INIT without a state and nothing changed but STATUS; else one block of keystream in ks and st unchanged
(43_block_function.md R168, R169; 60_exceptions.md R238). Which words are left in the unobservable working copy is the
model's choice (log 19) and is not stated. -/
def Obligations.BlockFillsTheKeystreamBuffer : Prop :=
  ∀ s : State,
    (s.valid = false →
      exec .block s = .next { s with phase := .idle, done := true, err := .notInit, race := Race.none }) ∧
    (s.valid = true →
      ∃ wk' : Words, exec .block s =
        .next { s with wk := wk', ks := block s.st, phase := .idle, done := true, err := .ok, race := Race.none })

/-! ### APPLY -/

/-- CtrInc is the 64-bit increment of words 13 and 12: word 12 counts mod 2^32, a wrap carries into word 13, and no other
word changes (44_stream_loop.md R192). -/
def Obligations.CounterIncrementCarriesIntoWord13 : Prop :=
  ∀ w : Words,
    (w[12] = 0xFFFFFFFF → (ctrInc w)[12] = 0 ∧ (ctrInc w)[13] = w[13] + 1) ∧
    (w[12] ≠ 0xFFFFFFFF → (ctrInc w)[12] = w[12] + 1 ∧ (ctrInc w)[13] = w[13]) ∧
    ((ctrInc w)[13] ++ (ctrInc w)[12] : BitVec 64) = (w[13] ++ w[12] : BitVec 64) + 1 ∧
    ∀ i : Fin 16, i ≠ 12 → i ≠ 13 → (ctrInc w)[i] = w[i]

/-- APPLY's validation, in its order: NOT_INIT, then LEN = 0 completes with OK, then CAPACITY, then OVERLAP, each leaving
everything but STATUS; else the cursors are loaded and GEN is next (44_stream_loop.md R191, R196, R197, R198). -/
def Obligations.ApplyValidatesInOrder : Prop :=
  ∀ s : State, s.phase = .decode →
    let src := s.lat.src.toNat
    let dst := s.lat.dst.toNat
    let len := s.lat.len.toNat
    let ends := fun (code : ErrCode) =>
      exec .apply s = .next { s with phase := .idle, done := true, err := code, race := Race.none }
    (s.valid = false → ends .notInit) ∧
    (s.valid = true → len = 0 → ends .ok) ∧
    (s.valid = true → 0 < len → (s.params.dmemSize < src + len ∨ s.params.dmemSize < dst + len) → ends .capacity) ∧
    (s.valid = true → 0 < len → src + len ≤ s.params.dmemSize → dst + len ≤ s.params.dmemSize →
      (src ≠ dst ∧ src < dst + len ∧ dst < src + len) → ends .overlap) ∧
    (s.valid = true → 0 < len → src + len ≤ s.params.dmemSize → dst + len ≤ s.params.dmemSize →
      ¬(src ≠ dst ∧ src < dst + len ∧ dst < src + len) →
      exec .apply s =
        .next { s with cur := { s.cur with rem := len, scur := src, dcur := dst }, phase := .gen })

/-- GEN: the keystream block of the state before the increment, then CtrInc, the block's byte count and index, and XOR is
next (44_stream_loop.md R193). -/
def Obligations.GenMakesOneBlock : Prop :=
  ∀ s : State, s.phase = .gen →
    ∃ wk' : Words, exec .apply s =
      .next { s with wk := wk', ks := block s.st, st := ctrInc s.st,
                     cur := { s.cur with n := min s.cur.rem 64, j := 0 }, phase := .xor }

/-- XOR writes one byte: destination byte dcur + j gets the source byte at scur + j exclusive-or keystream byte j, every
other byte of DMEM is unchanged, and the machine answers a next state (44_stream_loop.md R194). The source byte is the one
in DMEM and the write lands unless a race says otherwise (20_memory.md R71, log 7). -/
def Obligations.XorWritesOneByte : Prop :=
  ∀ (s : State) (hj : s.cur.j < 64), s.phase = .xor → s.dmem.wf = true →
    s.cur.scur + s.cur.j < s.params.dmemSize → s.cur.dcur + s.cur.j < s.params.dmemSize →
    ∃ t : State, exec .apply s = .next t ∧
      t.dmem.read (s.cur.dcur + s.cur.j) =
        (if s.cur.dcur + s.cur.j ∈ s.race.landed then s.dmem.read (s.cur.dcur + s.cur.j)
         else s.sourceByte (s.cur.scur + s.cur.j) ^^^ s.ks[s.cur.j]) ∧
      (s.raceFree → s.sourceByte (s.cur.scur + s.cur.j) = s.dmem.read (s.cur.scur + s.cur.j)) ∧
      ∀ a : Nat, a ≠ s.cur.dcur + s.cur.j → t.dmem.read a = s.dmem.read a

/-- Where an XOR step stops: an address that does not exist in DMEM is a fault, and an index that names no keystream byte
is refused. No sound state is such a state (44_stream_loop.md R190; the stops are the model's, logs 10 and 13). -/
def Obligations.XorStopsWhereNoByteExists : Prop :=
  ∀ s : State, s.phase = .xor →
    (64 ≤ s.cur.j → exec .apply s = .refused (.noKeystreamByte s.cur.j)) ∧
    (s.cur.j < 64 → s.params.dmemSize ≤ s.cur.scur + s.cur.j →
      exec .apply s = .fault (.dmemOutOfRange (s.cur.scur + s.cur.j))) ∧
    (s.cur.j < 64 → s.cur.scur + s.cur.j < s.params.dmemSize → s.params.dmemSize ≤ s.cur.dcur + s.cur.j →
      exec .apply s = .fault (.dmemOutOfRange (s.cur.dcur + s.cur.j)))

/-- The end of an XOR step: inside a block only j moves; at a block's end the cursors move and GEN is next; at the
message's end the command completes with OK. Everything but DMEM, the cursors and STATUS is unchanged
(44_stream_loop.md R195). -/
def Obligations.XorMovesTheCursors : Prop :=
  ∀ s t : State, s.phase = .xor → exec .apply s = .next t →
    (s.cur.j + 1 ≠ s.cur.n → t = { s with dmem := t.dmem, cur := { s.cur with j := s.cur.j + 1 } }) ∧
    (s.cur.j + 1 = s.cur.n → s.cur.n < s.cur.rem →
      t = { s with dmem := t.dmem, phase := .gen,
                   cur := { rem := s.cur.rem - s.cur.n, scur := s.cur.scur + s.cur.n, dcur := s.cur.dcur + s.cur.n,
                            n := s.cur.n, j := s.cur.n } }) ∧
    (s.cur.j + 1 = s.cur.n → s.cur.rem = s.cur.n →
      t = { s with dmem := t.dmem, phase := .idle, done := true, err := .ok, race := Race.none,
                   cur := { rem := 0, scur := s.cur.scur + s.cur.n, dcur := s.cur.dcur + s.cur.n,
                            n := s.cur.n, j := s.cur.n } })

/-- The keystream position law: an accepted APPLY that runs undisturbed completes with OK after its 1 + ceil(LEN/64) + LEN
core steps; each destination byte is the source byte exclusive-or its keystream byte, every other byte of DMEM is
unchanged, and the 64-bit counter has advanced by ceil(LEN/64) (44_stream_loop.md R199; 70_reset_and_hazards.md R274). -/
def Obligations.ApplyKeystreamLaw : Prop :=
  ∀ s : State, s.applyReady →
    ∃ t : State, Host.Core.run Sys2Proof.core (applySteps s.msgLen) s = .next t ∧
      t.phase = .idle ∧ t.done = true ∧ t.err = .ok ∧
      (∀ i : Nat, i < s.msgLen →
        t.dmem.read (s.dstBase + i) =
          s.dmem.read (s.srcBase + i) ^^^
            (block (withCounter s.st (counter s.st + BitVec.ofNat 64 (i / 64))))[i % 64]'(Nat.mod_lt i (Nat.succ_pos 63))) ∧
      (∀ a : Nat, (a < s.dstBase ∨ s.dstBase + s.msgLen ≤ a) → t.dmem.read a = s.dmem.read a) ∧
      counter t.st = counter s.st + BitVec.ofNat 64 ((s.msgLen + 63) / 64) ∧
      (∀ i : Fin 16, i ≠ 12 → i ≠ 13 → t.st[i] = s.st[i]) ∧
      t.valid = s.valid ∧ t.overrun = s.overrun ∧ t.irqEn = s.irqEn ∧ t.regs = s.regs ∧ t.lat = s.lat ∧
      t.params = s.params ∧ t.inputs = s.inputs ∧ t.reads = s.reads ∧ t.draws = s.draws

/-- No earlier core step of an undisturbed APPLY ends it: it is BUSY until its last step (70_reset_and_hazards.md R274). -/
def Obligations.ApplyStaysBusyUntilItsLastStep : Prop :=
  ∀ (s : State) (k : Nat), s.applyReady → k < applySteps s.msgLen →
    ∃ t : State, Host.Core.run Sys2Proof.core k s = .next t ∧ t.busy = true

/-- Involution: two undisturbed APPLY runs of one length from the same cipher state, the second's source holding the
first's output, give back the first's input (44_stream_loop.md R201). -/
def Obligations.ApplyTwiceGivesBackTheInput : Prop :=
  ∀ s₁ t₁ s₂ t₂ : State, s₁.applyReady → s₂.applyReady → s₂.st = s₁.st → s₂.msgLen = s₁.msgLen →
    Host.Core.run Sys2Proof.core (applySteps s₁.msgLen) s₁ = .next t₁ →
    (∀ i : Nat, i < s₁.msgLen → s₂.dmem.read (s₂.srcBase + i) = t₁.dmem.read (s₁.dstBase + i)) →
    Host.Core.run Sys2Proof.core (applySteps s₂.msgLen) s₂ = .next t₂ →
    ∀ i : Nat, i < s₁.msgLen → t₂.dmem.read (s₂.dstBase + i) = s₁.dmem.read (s₁.srcBase + i)

/-- Successive APPLY commands continue one keystream: a message split after a multiple of 64 bytes and processed by two
commands gives the DMEM and the cipher state that one command over the whole message gives (44_stream_loop.md R202). -/
def Obligations.SuccessiveAppliesContinueOneKeystream : Prop :=
  ∀ s t s₁ t₁ s₂ t₂ : State, s.applyReady → s₁.applyReady → s₂.applyReady →
    s₁.st = s.st → s₁.dmem = s.dmem → s₁.srcBase = s.srcBase → s₁.dstBase = s.dstBase → s₁.msgLen % 64 = 0 →
    s₂.st = t₁.st → s₂.dmem = t₁.dmem → s₂.srcBase = s.srcBase + s₁.msgLen → s₂.dstBase = s.dstBase + s₁.msgLen →
    s.msgLen = s₁.msgLen + s₂.msgLen →
    Host.Core.run Sys2Proof.core (applySteps s.msgLen) s = .next t →
    Host.Core.run Sys2Proof.core (applySteps s₁.msgLen) s₁ = .next t₁ →
    Host.Core.run Sys2Proof.core (applySteps s₂.msgLen) s₂ = .next t₂ →
    t₂.st = t.st ∧ ∀ a : Nat, t₂.dmem.read a = t.dmem.read a

/-! ### Host registers -/

/-- The register map: each named register stands at its offset, an aligned offset names a register exactly when it is that
register's, and the rest of the window is the two reserved ranges (10_state.md R30). -/
def Obligations.RegisterMapIsOneToOne : Prop :=
  (Reg.ofOffset 0x000 = some .ctrl ∧ Reg.ofOffset 0x004 = some .status ∧ Reg.ofOffset 0x008 = some .cmd ∧
    Reg.ofOffset 0x00C = some .keyLen ∧ Reg.ofOffset 0x010 = some .nonceLen ∧ Reg.ofOffset 0x014 = some .ctrInit ∧
    Reg.ofOffset 0x018 = some .src ∧ Reg.ofOffset 0x01C = some .dst ∧ Reg.ofOffset 0x020 = some .len) ∧
  (∀ k : Fin 8, Reg.ofOffset (0x040 + 4 * k.val) = some (.key k)) ∧
  (∀ k : Fin 3, Reg.ofOffset (0x060 + 4 * k.val) = some (.nonce k)) ∧
  (∀ k : Fin 16, Reg.ofOffset (0x080 + 4 * k.val) = some (.state k)) ∧
  (∀ k : Fin 16, Reg.ofOffset (0x0C0 + 4 * k.val) = some (.ks k)) ∧
  (∀ (r : Reg) (off : Nat), off < 256 → off % 4 = 0 → (Reg.ofOffset off = some r ↔ off = r.offset)) ∧
  (∀ r : Reg, r.offset < 256 ∧ r.offset % 4 = 0) ∧
  (∀ off : Nat, off < 256 → off % 4 = 0 →
    (Reg.ofOffset off = none ↔ (0x024 ≤ off ∧ off ≤ 0x03C) ∨ (0x06C ≤ off ∧ off ≤ 0x07C)))

/-- A register access that is not an aligned 32-bit one is a host bus fault; an aligned 32-bit one is none
(10_state.md R31, 60_exceptions.md R239). -/
def Obligations.MisalignedRegisterAccessFaults : Prop :=
  ∀ (s : State) (off size : Nat) (v : Word), off < 256 →
    ((size ≠ 4 ∨ off % 4 ≠ 0) →
      runEvent (.regRead off size) s = .fault (.hostBusFault off size) ∧
      runEvent (.regWrite off size v) s = .fault (.hostBusFault off size)) ∧
    (size = 4 → off % 4 = 0 →
      (∃ t : State, runEvent (.regRead off size) s = .next t) ∧
      (∃ t : State, runEvent (.regWrite off size v) s = .next t))

/-- The STATUS register, bit by bit (10_state.md R34, R35), with the number of each error code (60_exceptions.md R230). -/
def Obligations.StatusBits : Prop :=
  (∀ s : State,
    (s.statusWord.getLsbD 0 = true ↔ s.phase ≠ .idle) ∧
    s.statusWord.getLsbD 1 = s.valid ∧ s.statusWord.getLsbD 2 = s.done ∧ s.statusWord.getLsbD 3 = s.overrun ∧
    s.statusWord.extractLsb' 4 4 = 0 ∧ s.statusWord.extractLsb' 8 4 = s.err.code ∧
    s.statusWord.extractLsb' 12 20 = 0) ∧
  ErrCode.ok.code = 0 ∧ ErrCode.keySize.code = 1 ∧ ErrCode.nonceSize.code = 2 ∧ ErrCode.capacity.code = 3 ∧
    ErrCode.overlap.code = 4 ∧ ErrCode.illegal.code = 5 ∧ ErrCode.notInit.code = 6

/-- A host write to STATUS clears DONE and OVERRUN where a 1 is written and changes nothing else (10_state.md R34); the
IRQ output follows IRQ_EN and DONE (60_exceptions.md R240). -/
def Obligations.StatusWriteClearsByOnes : Prop :=
  ∀ (s : State) (v : Word), ∃ t : State, runEvent (.regWrite 0x004 4 v) s = .next t ∧
    t = { s with done := t.done, overrun := t.overrun } ∧
    t.done = (if v.getLsbD 2 then false else s.done) ∧ t.overrun = (if v.getLsbD 3 then false else s.overrun) ∧
    t.irq = (s.irqEn && t.done)

/-- A host write to CTRL sets IRQ_EN from bit 0 and changes nothing else, at any time; CTRL reads back bit 0 and zeros
(10_state.md R33). -/
def Obligations.CtrlWriteSetsIrqEnable : Prop :=
  ∀ (s : State) (v : Word), ∃ t : State, runEvent (.regWrite 0x000 4 v) s = .next t ∧
    t = { s with irqEn := v.getLsbD 0 } ∧ t.ctrlWord = (if v.getLsbD 0 then 1 else 0) ∧
    t.irq = (v.getLsbD 0 && s.done)

/-- A host write to CMD. While BUSY = 0 it is accepted, whatever the word: the operands are latched, DONE and ERR are
cleared, IRQ falls and the phase becomes DECODE. While BUSY = 1 it is dropped: OVERRUN is set and nothing else changes
(30_encoding.md R96, 60_exceptions.md R236). The model's race record starts from DMEM as it is at the accept (log 7). -/
def Obligations.CmdWriteIsAcceptedOrOverruns : Prop :=
  ∀ (s : State) (w : Word),
    (s.phase ≠ .idle → runEvent (.regWrite 0x008 4 w) s = .next { s with overrun := true }) ∧
    (s.phase = .idle →
      ∃ l : Latches,
        runEvent (.regWrite 0x008 4 w) s =
          .next { s with lat := l, done := false, err := .ok, phase := .decode,
                         race := { hostView := s.dmem, fetched := [], landed := [] } } ∧
        l.cmd = w ∧ l.keyLen = s.regs.keyLen ∧ l.nonceLen = s.regs.nonceLen ∧ l.ctr = s.regs.ctrInit ∧
        l.src = s.regs.src ∧ l.dst = s.regs.dst ∧ l.len = s.regs.len ∧
        (∀ i : Fin 32, l.key[i] = s.regs.key[i.val / 4].extractLsb' (8 * (i.val % 4)) 8) ∧
        (∀ i : Fin 12, l.nonce[i] = s.regs.nonce[i.val / 4].extractLsb' (8 * (i.val % 4)) 8))

/-- An operand register holds what the host wrote, at once and whether a command runs or not; nothing but the operand
registers changes, no other register's value among them, and the read back gives the value (10_state.md R41, R42, R43,
R48). -/
def Obligations.OperandRegistersHoldTheirValue : Prop :=
  ∀ (s : State) (r : Reg) (v : Word), r ≠ .ctrl → r ≠ .status → r ≠ .cmd → (∀ k, r ≠ .state k) → (∀ k, r ≠ .ks k) →
    ∃ t : State, runEvent (.regWrite r.offset 4 v) s = .next t ∧
      t = { s with regs := t.regs } ∧ t.regValue r = v ∧ (∀ q : Reg, q ≠ r → t.regValue q = s.regValue q) ∧
      runEvent (.regRead r.offset 4) t = .next { t with reads := .reg r.offset v :: t.reads }

/-- Reserved space reads 0 and ignores writes; reserved bits of CTRL and STATUS read 0 and writes to them are ignored; the
read-only registers ignore writes; none of these is a fault (10_state.md R44). -/
def Obligations.ReservedAndReadOnlyRegisters : Prop :=
  (∀ (s : State) (off : Nat) (v : Word), off % 4 = 0 →
    ((0x024 ≤ off ∧ off ≤ 0x03C) ∨ (0x06C ≤ off ∧ off ≤ 0x07C)) →
    runEvent (.regRead off 4) s = .next { s with reads := .reg off 0 :: s.reads } ∧
    runEvent (.regWrite off 4 v) s = .next s) ∧
  (∀ (s : State) (off : Nat) (v : Word), off % 4 = 0 → 0x080 ≤ off → off ≤ 0x0FC →
    runEvent (.regWrite off 4 v) s = .next s) ∧
  (∀ s : State, s.ctrlWord.extractLsb' 1 31 = 0 ∧ s.statusWord.extractLsb' 4 4 = 0 ∧ s.statusWord.extractLsb' 12 20 = 0) ∧
  (∀ (s : State) (v : Word),
    runEvent (.regWrite 0x000 4 v) s = runEvent (.regWrite 0x000 4 (v &&& 0x1)) s ∧
    runEvent (.regWrite 0x004 4 v) s = runEvent (.regWrite 0x004 4 (v &&& 0xC)) s)

/-- STATEi and KSk read the state words and the keystream bytes while BUSY = 0 (10_state.md R45, R46). -/
def Obligations.ReadViewsWhenIdle : Prop :=
  ∀ (s : State) (i : Fin 16), s.phase = .idle →
    runEvent (.regRead (0x080 + 4 * i.val) 4) s =
      .next { s with reads := .reg (0x080 + 4 * i.val) s.st[i] :: s.reads } ∧
    runEvent (.regRead (0x0C0 + 4 * i.val) 4) s =
      .next { s with reads := (HostRead.reg (0x0C0 + 4 * i.val)
        (s.ks[4 * i.val + 3] ++ s.ks[4 * i.val + 2] ++ s.ks[4 * i.val + 1] ++ s.ks[4 * i.val])) :: s.reads }

/-- After a BLOCK, KSk reads output word k of the block function (10_state.md R46, 43_block_function.md R166). -/
def Obligations.KsReadsOutputWord : Prop :=
  ∀ (s t : State) (k : Fin 16), s.valid = true → exec .block s = .next t →
    runEvent (.regRead (0x0C0 + 4 * k.val) 4) t =
      .next { t with reads := .reg (0x0C0 + 4 * k.val) ((permute s.st)[k] + s.st[k]) :: t.reads }

/-- A read of STATEi or KSk while BUSY = 1 answers with the free value of a fresh draw, so two reads draw two; a read of
any other register answers with its defined value whether BUSY or not (10_state.md R47). The free value is
Config.freeWord of the count of draws (log 6). -/
def Obligations.ReadViewsWhenBusyAreFree : Prop :=
  (∀ (s : State) (i : Fin 16), s.phase ≠ .idle →
    runEvent (.regRead (0x080 + 4 * i.val) 4) s =
      .next { s with draws := s.draws + 1,
                     reads := .reg (0x080 + 4 * i.val) (Config.freeWord s.draws) :: s.reads } ∧
    runEvent (.regRead (0x0C0 + 4 * i.val) 4) s =
      .next { s with draws := s.draws + 1,
                     reads := .reg (0x0C0 + 4 * i.val) (Config.freeWord s.draws) :: s.reads }) ∧
  (∀ s : State,
    runEvent (.regRead 0x000 4) s = .next { s with reads := .reg 0x000 s.ctrlWord :: s.reads } ∧
    runEvent (.regRead 0x004 4) s = .next { s with reads := .reg 0x004 s.statusWord :: s.reads } ∧
    runEvent (.regRead 0x008 4) s = .next { s with reads := .reg 0x008 0 :: s.reads } ∧
    runEvent (.regRead 0x00C 4) s = .next { s with reads := .reg 0x00C s.regs.keyLen :: s.reads } ∧
    runEvent (.regRead 0x010 4) s = .next { s with reads := .reg 0x010 s.regs.nonceLen :: s.reads } ∧
    runEvent (.regRead 0x014 4) s = .next { s with reads := .reg 0x014 s.regs.ctrInit :: s.reads } ∧
    runEvent (.regRead 0x018 4) s = .next { s with reads := .reg 0x018 s.regs.src :: s.reads } ∧
    runEvent (.regRead 0x01C 4) s = .next { s with reads := .reg 0x01C s.regs.dst :: s.reads } ∧
    runEvent (.regRead 0x020 4) s = .next { s with reads := .reg 0x020 s.regs.len :: s.reads } ∧
    (∀ k : Fin 8, runEvent (.regRead (0x040 + 4 * k.val) 4) s =
      .next { s with reads := .reg (0x040 + 4 * k.val) s.regs.key[k] :: s.reads }) ∧
    (∀ k : Fin 3, runEvent (.regRead (0x060 + 4 * k.val) 4) s =
      .next { s with reads := .reg (0x060 + 4 * k.val) s.regs.nonce[k] :: s.reads }))

/-- No register read has a side effect: only the host's record and the count of draws move (20_memory.md R67). -/
def Obligations.RegisterReadsHaveNoSideEffect : Prop :=
  ∀ (s t : State) (off size : Nat), runEvent (.regRead off size) s = .next t →
    t = { s with reads := t.reads, draws := t.draws } ∧ ∃ v : Word, t.reads = .reg off v :: s.reads

/-- WAIT reads STATUS; it ends when BUSY = 0 and else goes on after a core step (30_encoding.md R99). The schedule of one
core step between two reads is the model's choice (log 21). -/
def Obligations.WaitReadsStatusUntilIdle : Prop :=
  ∀ s : State,
    (s.phase = .idle → runEvent .wait s = .next { s with reads := .reg 0x004 s.statusWord :: s.reads }) ∧
    (s.phase ≠ .idle → runEvent .wait s =
      .next { s with reads := .reg 0x004 s.statusWord :: s.reads, inputs := .core :: .wait :: s.inputs })

/-! ### DMEM and the host -/

/-- A host DMEM access that does not race (20_memory.md R71, R67). A read of a byte outside the active destination range,
or while no APPLY runs, gives the byte, a source byte of a running APPLY included. A write of a byte outside both active
ranges, or while no APPLY runs, changes that byte and no other. What a write does to the record of DMEM without the core's
writes is the model's (log 7). -/
def Obligations.HostMemoryAccessWithoutRace : Prop :=
  ∀ (s : State) (a : Nat) (b : Byte), a < s.params.dmemSize → s.dmem.wf = true → s.race.hostView.wf = true →
    (s.applyRunning = false ∨ s.inDest a = false →
      runEvent (.dmemRead a) s = .next { s with reads := .dmem a (s.dmem.read a) :: s.reads }) ∧
    (s.applyRunning = false ∨ (s.inSource a = false ∧ s.inDest a = false) →
      ∃ t : State, runEvent (.dmemWrite a b) s = .next t ∧
        t = { s with dmem := t.dmem, race := t.race } ∧ t.race.fetched = s.race.fetched ∧
        t.race.landed = s.race.landed ∧ t.dmem.read a = b ∧ (∀ c : Nat, c ≠ a → t.dmem.read c = s.dmem.read c) ∧
        (s.phase = .idle → t.race.hostView = s.race.hostView) ∧
        (s.phase ≠ .idle → t.race.hostView.read a = b ∧
          ∀ c : Nat, c ≠ a → t.race.hostView.read c = s.race.hostView.read c))

/-- A host access past the end of DMEM stops with a fault (20_memory.md R60; the fault is the model's reading, log 10). -/
def Obligations.HostMemoryAccessOutsideFaults : Prop :=
  ∀ (s : State) (a : Nat) (b : Byte), s.params.dmemSize ≤ a →
    runEvent (.dmemRead a) s = .fault (.dmemOutOfRange a) ∧ runEvent (.dmemWrite a b) s = .fault (.dmemOutOfRange a)

/-- A host read of a destination byte while APPLY runs returns the value before APPLY or the value the core writes, as a
free bit decides: the one in DMEM once the core has written it, the one it will write before that (20_memory.md R71). DMEM
and the core's own state do not change, and the core goes on to see the source byte it saw. The free bit and the record
the value before APPLY is kept in are the model's (log 7). -/
def Obligations.RacingReadReturnsOldOrNew : Prop :=
  ∀ (s : State) (a : Nat), a < s.params.dmemSize → s.applyRunning = true → s.inDest a = true →
    ∃ t : State, runEvent (.dmemRead a) s = .next t ∧
      t = { s with reads := t.reads, race := t.race, draws := s.draws + 1 } ∧
      t.race.hostView = s.race.hostView ∧ t.race.landed = s.race.landed ∧
      (∀ c : Nat, t.sourceByte c = s.sourceByte c) ∧
      t.reads = HostRead.dmem a
        (if Config.freeBit s.draws then s.race.hostView.read a
         else if a - s.dstBase < s.applied then s.dmem.read a
         else s.pendingByte (a - s.dstBase)) :: s.reads

/-- The byte a racing read promises is the byte the core writes: while a sound APPLY runs, a core step leaves the promised
value of every byte still to come, and an XOR step writes the promised value of its byte unless a race has given that byte
to the host (20_memory.md R71, 44_stream_loop.md R193, R194). -/
def Obligations.PromisedByteIsTheByteWritten : Prop :=
  ∀ s t : State, s.Inv → s.applyRunning = true → runEvent .core s = .next t →
    (∀ i : Nat, i < s.msgLen → t.applyRunning = true → t.applied ≤ i → t.pendingByte i = s.pendingByte i) ∧
    (s.phase = .xor → s.dstBase + s.applied ∉ s.race.landed →
      t.dmem.read (s.dstBase + s.applied) = s.pendingByte s.applied)

/-- A host write to a source byte of a running APPLY, out of place or in place (20_memory.md R71). A byte the core has not
read yet is seen by the core or not, as a free bit decides, and DMEM holds the host's value until the core writes there. A
byte it has read already, outside the destination range, is DMEM's alone. Nothing else of the core changes, and no other
byte. The free bit, the record, and that a value a racing read has promised stays promised are the model's (log 7). -/
def Obligations.RacingSourceWriteSeenOrNot : Prop :=
  ∀ (s : State) (a : Nat) (b : Byte), s.Inv → s.applyRunning = true → s.inSource a = true →
    ∃ t : State, runEvent (.dmemWrite a b) s = .next t ∧
      t = { s with dmem := t.dmem, race := t.race, draws := s.draws + 2 } ∧
      (s.applied ≤ a - s.srcBase ∨ s.inDest a = false → t.dmem.read a = b) ∧
      (s.applied ≤ a - s.srcBase → s.race.fetched.lookup a = none →
        t.sourceByte a = (if Config.freeBit s.draws then b else s.dmem.read a)) ∧
      (∀ v : Byte, s.race.fetched.lookup a = some v → t.sourceByte a = v) ∧
      (a - s.srcBase < s.applied → t.race.fetched = s.race.fetched) ∧
      t.race.hostView.read a = b ∧
      ∀ c : Nat, c ≠ a →
        t.dmem.read c = s.dmem.read c ∧ t.sourceByte c = s.sourceByte c ∧
          t.race.hostView.read c = s.race.hostView.read c ∧ (c ∈ t.race.landed ↔ c ∈ s.race.landed)

/-- A host write to a destination byte of a running APPLY, out of place or in place: the byte's final value is the host's
or the core's, as a free bit decides. A byte the core has written holds that one at once; of one it has not, the core's
later write lands or not (20_memory.md R71). Nothing else of the core changes, and no other byte. The free bit and the
record are the model's (log 7). -/
def Obligations.RacingDestinationWriteKeepsOneOfTwo : Prop :=
  ∀ (s : State) (a : Nat) (b : Byte), s.Inv → s.applyRunning = true → s.inDest a = true →
    ∃ t : State, runEvent (.dmemWrite a b) s = .next t ∧
      t = { s with dmem := t.dmem, race := t.race, draws := s.draws + 2 } ∧
      (a - s.dstBase < s.applied →
        t.dmem.read a = (if Config.freeBit (s.draws + 1) then b else s.dmem.read a)) ∧
      (s.applied ≤ a - s.dstBase → t.dmem.read a = b ∧
        ∀ v : Byte, (t.coreStore a v).dmem.read a = (if Config.freeBit (s.draws + 1) then b else v)) ∧
      t.race.hostView.read a = b ∧
      ∀ c : Nat, c ≠ a →
        t.dmem.read c = s.dmem.read c ∧ t.sourceByte c = s.sourceByte c ∧
          t.race.hostView.read c = s.race.hostView.read c ∧ (c ∈ t.race.landed ↔ c ∈ s.race.landed)

/-- A platform DMEM that refuses the core's access stops the run with a fault; a core step that makes no access is not
affected (93_implementation_defined.md U14; that it comes as a scheduled event is the model's form, log 9). -/
def Obligations.RefusedDmemAccessFaults : Prop :=
  ∀ s : State, (s.phase = .xor → runEvent .coreDmemRefused s = .fault .dmemRefused) ∧
    (s.phase ≠ .xor → runEvent .coreDmemRefused s = runEvent .core s)

/-- A bus access by host address: REG_BASE plus an offset reaches that register, DMEM_HOST_BASE plus an address that byte
of DMEM, and an access to neither window does nothing to the core (10_state.md R30, 20_memory.md R62; the last is the
model's reading, log 12). -/
def Obligations.HostBusReachesBothWindows : Prop :=
  ∀ s : State, s.params.wf = true →
    (∀ off : Nat, off < 256 → runEvent (.busRead (s.params.regBase + off) 4) s = runEvent (.regRead off 4) s) ∧
    (∀ (off : Nat) (b0 b1 b2 b3 : Byte), off < 256 →
      runEvent (.busWrite (s.params.regBase + off) [b0, b1, b2, b3]) s =
        runEvent (.regWrite off 4 (b3 ++ b2 ++ b1 ++ b0)) s) ∧
    (∀ a : Nat, a < s.params.dmemSize →
      runEvent (.busRead (s.params.dmemHostBase + a) 1) s = runEvent (.dmemRead a) s) ∧
    (∀ (a : Nat) (b : Byte), a < s.params.dmemSize →
      runEvent (.busWrite (s.params.dmemHostBase + a) [b]) s = runEvent (.dmemWrite a b) s) ∧
    (∀ addr size : Nat, (addr + size ≤ s.params.regBase ∨ s.params.regBase + 256 ≤ addr) →
      (addr + size ≤ s.params.dmemHostBase ∨ s.params.dmemHostBase + s.params.dmemSize ≤ addr) →
      runEvent (.busRead addr size) s = .next s) ∧
    (∀ (addr : Nat) (bytes : List Byte),
      (addr + bytes.length ≤ s.params.regBase ∨ s.params.regBase + 256 ≤ addr) →
      (addr + bytes.length ≤ s.params.dmemHostBase ∨ s.params.dmemHostBase + s.params.dmemSize ≤ addr) →
      runEvent (.busWrite addr bytes) s = .next s)

/-! ### Reset -/

/-- The machine right after reset: every value 10_state.md R49 gives. -/
def Obligations.ResetValues : Prop :=
  (∀ i : Fin 16, State.reset.st[i] = 0) ∧ (∀ j : Fin 64, State.reset.ks[j] = 0) ∧ State.reset.valid = false ∧
    State.reset.phase = .idle ∧ State.reset.ctrlWord = 0 ∧ State.reset.statusWord = 0 ∧ State.reset.irq = false ∧
    State.reset.regs.keyLen = 0 ∧ State.reset.regs.nonceLen = 0 ∧ State.reset.regs.ctrInit = 0 ∧
    State.reset.regs.src = 0 ∧ State.reset.regs.dst = 0 ∧ State.reset.regs.len = 0 ∧
    (∀ k : Fin 8, State.reset.regs.key[k] = 0) ∧ (∀ k : Fin 3, State.reset.regs.nonce[k] = 0)

/-- Reset at any time and in any state: every register, `st`, `ks` and the status take their reset values, the phase is
IDLE and IRQ is low, and the platform's parameters stay (70_reset_and_hazards.md R260, R262). -/
def Obligations.ResetEventGivesResetValues : Prop :=
  ∀ s : State, ∃ t : State, runEvent .reset s = .next t ∧
    t.st = State.reset.st ∧ t.ks = State.reset.ks ∧ t.valid = false ∧ t.phase = .idle ∧ t.ctrlWord = 0 ∧
    t.statusWord = 0 ∧ t.irq = false ∧ t.regs = State.reset.regs ∧ t.params = s.params

/-- Reset leaves DMEM alone, but that the destination range of an APPLY it abandons is unknown: every byte outside it is
kept, and every byte inside is a free byte of a fresh draw (70_reset_and_hazards.md R261; 93_implementation_defined.md
U8). -/
def Obligations.ResetLeavesDmemOutsideAnAbandonedRange : Prop :=
  ∀ s : State, s.dmem.wf = true →
    ∃ t : State, runEvent .reset s = .next t ∧
      (s.applyRunning = false → t.dmem = s.dmem) ∧
      (∀ a : Nat, s.inDest a = false → t.dmem.read a = s.dmem.read a) ∧
      (s.applyRunning = true → ∀ i : Nat, i < s.msgLen →
        t.dmem.read (s.dstBase + i) = Config.freeByte (s.draws + i))

/-- Right after reset BLOCK and APPLY are refused with NOT_INIT and INIT with KEYSIZE: the STATUS words of
95_test_vectors.md section 2.7, from State.reset through a CMD write and one core step
(70_reset_and_hazards.md R262). -/
def Obligations.CommandsRightAfterReset : Prop :=
  ∀ (w status : Word), (w = 2 ∧ status = 0x604 ∨ w = 3 ∧ status = 0x604 ∨ w = 1 ∧ status = 0x104) →
    ∃ t : State,
      Host.Core.run Sys2Proof.core 2 { State.reset with inputs := [writeEvent .cmd w] } = .next t ∧
      t.statusWord = status ∧ t.st = State.reset.st ∧ t.ks = State.reset.ks

/-! ### The whole machine -/

/-- The reset state is sound. -/
def Obligations.ResetIsSound : Prop := State.reset.Inv

/-- Soundness is kept by every step of the machine, whoever takes it: DMEM stays canonical and inside DMEM_SIZE, a busy
core has DONE = 0 and ERR = 0, the cursors of a running APPLY stay inside its checked buffers, and the model's record of
DMEM without the core's writes (log 7) stays canonical. -/
def Obligations.StepKeepsSoundness : Prop :=
  ∀ s t : State, s.Inv → step s = .next t → t.Inv

/-- A core step of a sound state always answers a next state: once validation has passed, APPLY cannot fail
(44_stream_loop.md R190; 20_memory.md R62). -/
def Obligations.SoundCoreStepAnswers : Prop :=
  ∀ s : State, s.Inv → ∃ t : State, runEvent .core s = .next t

/-- In a sound state, a host that keeps its duties is never answered with a fault, never sets OVERRUN and never races
(70_reset_and_hazards.md R268, R271). -/
def Obligations.DutifulHostIsNeverRefused : Prop :=
  ∀ (s : State) (e : Event), s.Inv → e.respects s = true →
    ∃ t : State, runEvent e s = .next t ∧ (t.overrun = true → s.overrun = true) ∧ (s.raceFree → t.raceFree)

/-- A dutiful host does not disturb a running command: while BUSY = 1, a host event that keeps its duties changes nothing
the command reads or writes, DMEM inside its two ranges included; so the laws of an undisturbed run hold between such
events as well (70_reset_and_hazards.md R267, R268, R271; 10_state.md R48). It leaves the values the two ranges had before
APPLY in the model's record of them (log 7). -/
def Obligations.DutifulHostDoesNotDisturbACommand : Prop :=
  ∀ (s t : State) (e : Event), s.phase ≠ .idle → s.dmem.wf = true → s.race.hostView.wf = true →
    e.respects s = true → e ≠ .core → e ≠ .reset → runEvent e s = .next t →
    t = { s with irqEn := t.irqEn, done := t.done, overrun := t.overrun, regs := t.regs, dmem := t.dmem, race := t.race,
                 inputs := t.inputs, reads := t.reads, draws := t.draws } ∧
    (t.done = true → s.done = true) ∧ t.race.fetched = s.race.fetched ∧ t.race.landed = s.race.landed ∧
    (s.applyRunning = true → ∀ a : Nat, s.inSource a = true ∨ s.inDest a = true →
      t.dmem.read a = s.dmem.read a ∧ t.race.hostView.read a = s.race.hostView.read a)

/-- Who writes the state register: a core step that completes a successful INIT, the counter increment of a core step in
GEN (words 12 and 13 only), and reset; nothing else, and no host event (10_state.md R22, R21). -/
def Obligations.OnlyInitGenAndResetWriteTheState : Prop :=
  ∀ (s t : State) (i : Fin 16), step s = .next t → t.st[i] ≠ s.st[i] →
    (s.coreTakesStep ∧ s.phase = .decode ∧ t.phase = .idle ∧ s.lat.cmd = 0x00000001 ∧ s.lat.keyLen = 32 ∧
      s.lat.nonceLen = 12) ∨
    (s.coreTakesStep ∧ s.phase = .gen ∧ t.phase = .xor ∧ (i = 12 ∨ i = 13)) ∨
    (∃ rest : List Event, s.inputs = .reset :: rest)

/-- VALID changes only when a core step completes INIT or at reset: a successful INIT sets it, a failed one clears it
(10_state.md R29, R36). -/
def Obligations.OnlyInitAndResetChangeValid : Prop :=
  ∀ s t : State, step s = .next t → t.valid ≠ s.valid →
    (s.coreTakesStep ∧ s.phase = .decode ∧ s.lat.cmd = 0x00000001 ∧ t.phase = .idle ∧
      (t.valid = true ↔ s.lat.keyLen = 32 ∧ s.lat.nonceLen = 12)) ∨
    (∃ rest : List Event, s.inputs = .reset :: rest ∧ t.valid = false)

/-- The phase transitions of 10_state.md R26: what a core step does to the phase, and that of the host's events only a
CMD write to an idle core changes it: the aligned 32-bit write at offset 0x008, or the bus write of four bytes at
REG_BASE + 0x008 that is that write. -/
def Obligations.PhasesFollowTheTable : Prop :=
  (∀ s t : State, runEvent .core s = .next t →
    (s.phase = .idle → t = s) ∧
    (s.phase = .decode → t.phase = .idle ∨ (t.phase = .gen ∧ s.lat.cmd = 0x00000003 ∧ 0 < s.msgLen)) ∧
    (s.phase = .gen → t.phase = .xor) ∧
    (s.phase = .xor → s.cur.j + 1 ≠ s.cur.n → t.phase = .xor) ∧
    (s.phase = .xor → s.cur.j + 1 = s.cur.n → s.cur.n < s.cur.rem → t.phase = .gen) ∧
    (s.phase = .xor → s.cur.j + 1 = s.cur.n → s.cur.n = s.cur.rem → t.phase = .idle ∧ t.err = .ok)) ∧
  (∀ (s t : State) (e : Event), e ≠ .core → e ≠ .coreDmemRefused → e ≠ .reset → runEvent e s = .next t →
    t.phase = s.phase ∨
      (s.phase = .idle ∧ t.phase = .decode ∧
        ((∃ w : Word, e = .regWrite 0x008 4 w) ∨
         ∃ b0 b1 b2 b3 : Byte, e = .busWrite (s.params.regBase + 0x008) [b0, b1, b2, b3])))

/-- Errors are precise: a command that completes with a non-zero code has changed nothing except STATUS and, for INIT,
VALID (60_exceptions.md R233). -/
def Obligations.ErrorsChangeOnlyStatus : Prop :=
  ∀ s t : State, runEvent .core s = .next t → s.phase ≠ .idle → t.phase = .idle → t.err ≠ .ok →
    t = { s with valid := t.valid, phase := .idle, done := true, err := t.err, race := Race.none } ∧
    (t.valid ≠ s.valid → s.lat.cmd = 0x00000001)

/-- A running command reads only its latches: with any other contents of the operand registers and of CTRL, a core step
does the same to everything else (10_state.md R27, R48; 70_reset_and_hazards.md R267). -/
def Obligations.RunningCommandIgnoresOperandRegisters : Prop :=
  ∀ (s t : State) (r : OperandRegs) (b : Bool), runEvent .core s = .next t →
    runEvent .core { s with regs := r, irqEn := b } = .next { t with regs := r, irqEn := b }

/-- The core never writes the host's registers, never sets OVERRUN and never takes from the schedule: a core step leaves
them as they were (10_state.md R38, R42, R43). -/
def Obligations.CoreStepsLeaveHostRegisters : Prop :=
  ∀ s t : State, runEvent .core s = .next t →
    t.regs = s.regs ∧ t.irqEn = s.irqEn ∧ t.overrun = s.overrun ∧ t.lat = s.lat ∧ t.params = s.params ∧
      t.inputs = s.inputs ∧ t.reads = s.reads ∧ t.draws = s.draws

/-- Every accepted command of a sound state completes when the core runs alone (10_state.md R26, 70_reset_and_hazards.md
R275): within as many core steps as APPLY can take, from whatever point it stands at. -/
def Obligations.EveryCommandCompletes : Prop :=
  ∀ s : State, s.Inv → s.inputs = [] → s.phase ≠ .idle →
    ∃ (k : Nat) (t : State), k ≤ applySteps s.msgLen ∧ Host.Core.run Sys2Proof.core k s = .next t ∧
      t.phase = .idle ∧ t.done = true
end

