-- ==== Sys2Proof/Laws/Bits.lean ====
section
/-! SUPPORT. Rotation and byte packing in the library's own terms. -/

namespace Sys2Proof.Machine

/-- The rotation of 00_scope.md R13 is the library's, for the four amounts the quarter round uses. -/
theorem rotl32_eq_rotateLeft (x : Word) :
    rotl32 x 16 = x.rotateLeft 16 ∧ rotl32 x 12 = x.rotateLeft 12 ∧ rotl32 x 8 = x.rotateLeft 8 ∧
      rotl32 x 7 = x.rotateLeft 7 := by
  refine ⟨?_, ?_, ?_, ?_⟩ <;> simp [rotl32, BitVec.rotateLeft, BitVec.rotateLeftAux]

/-- Packing is concatenation, the last byte uppermost (00_scope.md R14). -/
theorem le32_eq_append (b0 b1 b2 b3 : Byte) : le32 b0 b1 b2 b3 = b3 ++ b2 ++ b1 ++ b0 := by
  unfold le32
  apply BitVec.eq_of_getLsbD_eq
  intro i hi
  simp only [BitVec.getLsbD_append, BitVec.getLsbD_or, BitVec.getLsbD_shiftLeft, BitVec.getLsbD_setWidth]
  interval_cases i <;> simp

/-- Packing a word's own bytes gives the word (00_scope.md R14). -/
theorem le32_byteOf (w : Word) : le32 (byteOf w 0) (byteOf w 1) (byteOf w 2) (byteOf w 3) = w := by
  rw [le32_eq_append]
  apply BitVec.eq_of_getLsbD_eq
  intro i hi
  simp only [byteOf, BitVec.getLsbD_append, BitVec.getLsbD_extractLsb']
  interval_cases i <;> simp

end Sys2Proof.Machine
end

