-- ==== Sys2Proof/Laws/Block.lean ====
section
/-! SUPPORT. The words of an add-rotate-xor step, of the counter, and of a state with its counter set. -/

namespace Sys2Proof.Machine

/-- The words after one add-rotate-xor step (42_quarter_round.md R140). -/
theorem arxStep_getElem (w : Words) {x y z : Fin 16} (n : Nat) (hxz : x ≠ z) (i : Fin 16) :
    (arxStep w x y z n)[i] =
      if i = z then rotl32 (w[z] ^^^ (w[x] + w[y])) n else if i = x then w[x] + w[y] else w[i] := by
  simp only [arxStep, Fin.getElem_fin, Vector.getElem_set, Fin.val_inj, if_neg hxz, if_true, eq_comm (a := i)]

/-- The four indices of a tuple are distinct (42_quarter_round.md R143). -/
theorem qr_distinct (t : QRTuple) :
    qrA t ≠ qrB t ∧ qrA t ≠ qrC t ∧ qrA t ≠ qrD t ∧ qrB t ≠ qrC t ∧ qrB t ≠ qrD t ∧ qrC t ≠ qrD t := by
  cases t <;> decide

/-- The 64-bit counter as a number. -/
theorem counter_toNat (w : Words) : (counter w).toNat = w[13].toNat * 2 ^ 32 + w[12].toNat := by
  unfold counter
  rw [BitVec.toNat_append, ← Nat.shiftLeft_add_eq_or_of_lt w[12].isLt, Nat.shiftLeft_eq]

/-- Setting the counter sets words 12 and 13 and no other. -/
theorem withCounter_getElem (w : Words) (c : BitVec 64) (i : Nat) (hi : i < 16) :
    (withCounter w c)[i] =
      if i = 13 then c.extractLsb' 32 32 else if i = 12 then c.extractLsb' 0 32 else w[i] := by
  unfold withCounter
  rw [Vector.getElem_set, Vector.getElem_set]
  by_cases h13 : i = 13
  · simp [h13]
  · by_cases h12 : i = 12
    · simp [h12]
    · simp [h13, h12, Ne.symm h13, Ne.symm h12]

@[simp] theorem counter_withCounter (w : Words) (c : BitVec 64) : counter (withCounter w c) = c := by
  apply BitVec.eq_of_toNat_eq
  rw [counter_toNat, withCounter_getElem, withCounter_getElem]
  have := c.isLt
  simp [BitVec.extractLsb'_toNat, Nat.shiftRight_eq_div_pow]
  omega

@[simp] theorem withCounter_counter (w : Words) : withCounter w (counter w) = w := by
  have h := counter_toNat w
  have h1 := w[12].isLt
  have h2 := w[13].isLt
  apply Vector.ext
  intro i hi
  rw [withCounter_getElem]
  split
  · subst_vars
    apply BitVec.eq_of_toNat_eq
    simp [BitVec.extractLsb'_toNat, Nat.shiftRight_eq_div_pow, h]
    omega
  · split
    · subst_vars
      apply BitVec.eq_of_toNat_eq
      simp [BitVec.extractLsb'_toNat, h]
      omega
    · rfl

@[simp] theorem withCounter_withCounter (w : Words) (c d : BitVec 64) :
    withCounter (withCounter w c) d = withCounter w d := by
  apply Vector.ext
  intro i hi
  simp only [withCounter_getElem]
  split
  · rfl
  · split <;> rfl

end Sys2Proof.Machine
end

