-- ==== Sys2Proof/Laws/Operands.lean ====
section
/-! SUPPORT. What the operand checks say: APPLY's ranges and its validation, and the copy made at accept. -/

namespace Sys2Proof.Machine

@[simp] theorem inRange_iff (p : Params) (a len : Nat) : inRange p a len = true ↔ a + len ≤ p.dmemSize := by
  simp [inRange]

@[simp] theorem partialOverlap_iff (src dst len : Nat) :
    partialOverlap src dst len = true ↔ src ≠ dst ∧ src < dst + len ∧ dst < src + len := by
  simp [partialOverlap, and_assoc]

@[simp] theorem inSource_iff (s : State) (a : Nat) :
    s.inSource a = true ↔ s.srcBase ≤ a ∧ a < s.srcBase + s.msgLen := by simp [State.inSource]

@[simp] theorem inDest_iff (s : State) (a : Nat) :
    s.inDest a = true ↔ s.dstBase ≤ a ∧ a < s.dstBase + s.msgLen := by simp [State.inDest]

/-- APPLY's validation as one chain of conditions on naturals (44_stream_loop.md R191). -/
theorem applyVerdict_eq (s : State) :
    s.applyVerdict =
      if s.valid = false then some .notInit
      else if s.msgLen = 0 then some .ok
      else if ¬(s.srcBase + s.msgLen ≤ s.params.dmemSize ∧ s.dstBase + s.msgLen ≤ s.params.dmemSize) then some .capacity
      else if s.srcBase ≠ s.dstBase ∧ s.srcBase < s.dstBase + s.msgLen ∧ s.dstBase < s.srcBase + s.msgLen then some .overlap
      else none := by
  simp only [State.applyVerdict, inRange, partialOverlap]
  by_cases h1 : s.srcBase + s.msgLen ≤ s.params.dmemSize <;> by_cases h2 : s.dstBase + s.msgLen ≤ s.params.dmemSize <;>
    simp [h1, h2, and_assoc]

/-- APPLY goes on to GEN exactly when every check passes. -/
theorem applyVerdict_none_iff (s : State) :
    s.applyVerdict = none ↔
      s.valid = true ∧ 0 < s.msgLen ∧ s.srcBase + s.msgLen ≤ s.params.dmemSize ∧
        s.dstBase + s.msgLen ≤ s.params.dmemSize ∧
        ¬(s.srcBase ≠ s.dstBase ∧ s.srcBase < s.dstBase + s.msgLen ∧ s.dstBase < s.srcBase + s.msgLen) := by
  rw [applyVerdict_eq]
  cases hv : s.valid
  · simp
  · by_cases h0 : s.msgLen = 0
    · simp [h0]
    · have h0' : 0 < s.msgLen := Nat.pos_of_ne_zero h0
      by_cases h1 : s.srcBase + s.msgLen ≤ s.params.dmemSize <;> by_cases h2 : s.dstBase + s.msgLen ≤ s.params.dmemSize <;>
        simp [h0, h0', h1, h2]

end Sys2Proof.Machine
end

