-- ==== Sys2Proof/Laws/State.lean ====
section
/-! SUPPORT. What each state update does to each field, so that no later proof unfolds one. -/

namespace Sys2Proof.Machine.State

@[simp] theorem complete_st (s : State) (code : ErrCode) : (s.complete code).st = s.st := rfl
@[simp] theorem complete_valid (s : State) (code : ErrCode) : (s.complete code).valid = s.valid := rfl
@[simp] theorem complete_wk (s : State) (code : ErrCode) : (s.complete code).wk = s.wk := rfl
@[simp] theorem complete_ks (s : State) (code : ErrCode) : (s.complete code).ks = s.ks := rfl
@[simp] theorem complete_phase (s : State) (code : ErrCode) : (s.complete code).phase = .idle := rfl
@[simp] theorem complete_lat (s : State) (code : ErrCode) : (s.complete code).lat = s.lat := rfl
@[simp] theorem complete_cur (s : State) (code : ErrCode) : (s.complete code).cur = s.cur := rfl
@[simp] theorem complete_irqEn (s : State) (code : ErrCode) : (s.complete code).irqEn = s.irqEn := rfl
@[simp] theorem complete_done (s : State) (code : ErrCode) : (s.complete code).done = true := rfl
@[simp] theorem complete_overrun (s : State) (code : ErrCode) : (s.complete code).overrun = s.overrun := rfl
@[simp] theorem complete_err (s : State) (code : ErrCode) : (s.complete code).err = code := rfl
@[simp] theorem complete_regs (s : State) (code : ErrCode) : (s.complete code).regs = s.regs := rfl
@[simp] theorem complete_dmem (s : State) (code : ErrCode) : (s.complete code).dmem = s.dmem := rfl
@[simp] theorem complete_params (s : State) (code : ErrCode) : (s.complete code).params = s.params := rfl
@[simp] theorem complete_race (s : State) (code : ErrCode) : (s.complete code).race = Race.none := rfl
@[simp] theorem complete_inputs (s : State) (code : ErrCode) : (s.complete code).inputs = s.inputs := rfl
@[simp] theorem complete_reads (s : State) (code : ErrCode) : (s.complete code).reads = s.reads := rfl
@[simp] theorem complete_draws (s : State) (code : ErrCode) : (s.complete code).draws = s.draws := rfl

@[simp] theorem accept_st (s : State) (w : Word) : (s.accept w).st = s.st := rfl
@[simp] theorem accept_valid (s : State) (w : Word) : (s.accept w).valid = s.valid := rfl
@[simp] theorem accept_wk (s : State) (w : Word) : (s.accept w).wk = s.wk := rfl
@[simp] theorem accept_ks (s : State) (w : Word) : (s.accept w).ks = s.ks := rfl
@[simp] theorem accept_phase (s : State) (w : Word) : (s.accept w).phase = .decode := rfl
@[simp] theorem accept_lat (s : State) (w : Word) : (s.accept w).lat = s.regs.latch w := rfl
@[simp] theorem accept_cur (s : State) (w : Word) : (s.accept w).cur = s.cur := rfl
@[simp] theorem accept_irqEn (s : State) (w : Word) : (s.accept w).irqEn = s.irqEn := rfl
@[simp] theorem accept_done (s : State) (w : Word) : (s.accept w).done = false := rfl
@[simp] theorem accept_overrun (s : State) (w : Word) : (s.accept w).overrun = s.overrun := rfl
@[simp] theorem accept_err (s : State) (w : Word) : (s.accept w).err = .ok := rfl
@[simp] theorem accept_regs (s : State) (w : Word) : (s.accept w).regs = s.regs := rfl
@[simp] theorem accept_dmem (s : State) (w : Word) : (s.accept w).dmem = s.dmem := rfl
@[simp] theorem accept_params (s : State) (w : Word) : (s.accept w).params = s.params := rfl
@[simp] theorem accept_race (s : State) (w : Word) :
    (s.accept w).race = { hostView := s.dmem, fetched := [], landed := [] } := rfl
@[simp] theorem accept_inputs (s : State) (w : Word) : (s.accept w).inputs = s.inputs := rfl
@[simp] theorem accept_reads (s : State) (w : Word) : (s.accept w).reads = s.reads := rfl
@[simp] theorem accept_draws (s : State) (w : Word) : (s.accept w).draws = s.draws := rfl

@[simp] theorem record_st (s : State) (r : HostRead) : (s.record r).st = s.st := rfl
@[simp] theorem record_valid (s : State) (r : HostRead) : (s.record r).valid = s.valid := rfl
@[simp] theorem record_wk (s : State) (r : HostRead) : (s.record r).wk = s.wk := rfl
@[simp] theorem record_ks (s : State) (r : HostRead) : (s.record r).ks = s.ks := rfl
@[simp] theorem record_phase (s : State) (r : HostRead) : (s.record r).phase = s.phase := rfl
@[simp] theorem record_lat (s : State) (r : HostRead) : (s.record r).lat = s.lat := rfl
@[simp] theorem record_cur (s : State) (r : HostRead) : (s.record r).cur = s.cur := rfl
@[simp] theorem record_irqEn (s : State) (r : HostRead) : (s.record r).irqEn = s.irqEn := rfl
@[simp] theorem record_done (s : State) (r : HostRead) : (s.record r).done = s.done := rfl
@[simp] theorem record_overrun (s : State) (r : HostRead) : (s.record r).overrun = s.overrun := rfl
@[simp] theorem record_err (s : State) (r : HostRead) : (s.record r).err = s.err := rfl
@[simp] theorem record_regs (s : State) (r : HostRead) : (s.record r).regs = s.regs := rfl
@[simp] theorem record_dmem (s : State) (r : HostRead) : (s.record r).dmem = s.dmem := rfl
@[simp] theorem record_params (s : State) (r : HostRead) : (s.record r).params = s.params := rfl
@[simp] theorem record_race (s : State) (r : HostRead) : (s.record r).race = s.race := rfl
@[simp] theorem record_inputs (s : State) (r : HostRead) : (s.record r).inputs = s.inputs := rfl
@[simp] theorem record_reads (s : State) (r : HostRead) : (s.record r).reads = r :: s.reads := rfl
@[simp] theorem record_draws (s : State) (r : HostRead) : (s.record r).draws = s.draws := rfl

@[simp] theorem runBlock_st (s : State) : s.runBlock.st = s.st := rfl
@[simp] theorem runBlock_valid (s : State) : s.runBlock.valid = s.valid := rfl
@[simp] theorem runBlock_wk (s : State) : s.runBlock.wk = blockWords s.st := rfl
@[simp] theorem runBlock_ks (s : State) : s.runBlock.ks = block s.st := rfl
@[simp] theorem runBlock_phase (s : State) : s.runBlock.phase = s.phase := rfl
@[simp] theorem runBlock_lat (s : State) : s.runBlock.lat = s.lat := rfl
@[simp] theorem runBlock_cur (s : State) : s.runBlock.cur = s.cur := rfl
@[simp] theorem runBlock_irqEn (s : State) : s.runBlock.irqEn = s.irqEn := rfl
@[simp] theorem runBlock_done (s : State) : s.runBlock.done = s.done := rfl
@[simp] theorem runBlock_overrun (s : State) : s.runBlock.overrun = s.overrun := rfl
@[simp] theorem runBlock_err (s : State) : s.runBlock.err = s.err := rfl
@[simp] theorem runBlock_regs (s : State) : s.runBlock.regs = s.regs := rfl
@[simp] theorem runBlock_dmem (s : State) : s.runBlock.dmem = s.dmem := rfl
@[simp] theorem runBlock_params (s : State) : s.runBlock.params = s.params := rfl
@[simp] theorem runBlock_race (s : State) : s.runBlock.race = s.race := rfl
@[simp] theorem runBlock_inputs (s : State) : s.runBlock.inputs = s.inputs := rfl
@[simp] theorem runBlock_reads (s : State) : s.runBlock.reads = s.reads := rfl
@[simp] theorem runBlock_draws (s : State) : s.runBlock.draws = s.draws := rfl

@[simp] theorem genStep_st (s : State) : s.genStep.st = ctrInc s.st := rfl
@[simp] theorem genStep_valid (s : State) : s.genStep.valid = s.valid := rfl
@[simp] theorem genStep_wk (s : State) : s.genStep.wk = blockWords s.st := rfl
@[simp] theorem genStep_ks (s : State) : s.genStep.ks = block s.st := rfl
@[simp] theorem genStep_phase (s : State) : s.genStep.phase = .xor := rfl
@[simp] theorem genStep_lat (s : State) : s.genStep.lat = s.lat := rfl
@[simp] theorem genStep_cur (s : State) : s.genStep.cur = { s.cur with n := min s.cur.rem 64, j := 0 } := rfl
@[simp] theorem genStep_irqEn (s : State) : s.genStep.irqEn = s.irqEn := rfl
@[simp] theorem genStep_done (s : State) : s.genStep.done = s.done := rfl
@[simp] theorem genStep_overrun (s : State) : s.genStep.overrun = s.overrun := rfl
@[simp] theorem genStep_err (s : State) : s.genStep.err = s.err := rfl
@[simp] theorem genStep_regs (s : State) : s.genStep.regs = s.regs := rfl
@[simp] theorem genStep_dmem (s : State) : s.genStep.dmem = s.dmem := rfl
@[simp] theorem genStep_params (s : State) : s.genStep.params = s.params := rfl
@[simp] theorem genStep_race (s : State) : s.genStep.race = s.race := rfl
@[simp] theorem genStep_inputs (s : State) : s.genStep.inputs = s.inputs := rfl
@[simp] theorem genStep_reads (s : State) : s.genStep.reads = s.reads := rfl
@[simp] theorem genStep_draws (s : State) : s.genStep.draws = s.draws := rfl

@[simp] theorem writeStatus_st (s : State) (v : Word) : (s.writeStatus v).st = s.st := rfl
@[simp] theorem writeStatus_valid (s : State) (v : Word) : (s.writeStatus v).valid = s.valid := rfl
@[simp] theorem writeStatus_wk (s : State) (v : Word) : (s.writeStatus v).wk = s.wk := rfl
@[simp] theorem writeStatus_ks (s : State) (v : Word) : (s.writeStatus v).ks = s.ks := rfl
@[simp] theorem writeStatus_phase (s : State) (v : Word) : (s.writeStatus v).phase = s.phase := rfl
@[simp] theorem writeStatus_lat (s : State) (v : Word) : (s.writeStatus v).lat = s.lat := rfl
@[simp] theorem writeStatus_cur (s : State) (v : Word) : (s.writeStatus v).cur = s.cur := rfl
@[simp] theorem writeStatus_irqEn (s : State) (v : Word) : (s.writeStatus v).irqEn = s.irqEn := rfl
@[simp] theorem writeStatus_done (s : State) (v : Word) : (s.writeStatus v).done = (s.done && !v.getLsbD 2) := rfl
@[simp] theorem writeStatus_overrun (s : State) (v : Word) :
    (s.writeStatus v).overrun = (s.overrun && !v.getLsbD 3) := rfl
@[simp] theorem writeStatus_err (s : State) (v : Word) : (s.writeStatus v).err = s.err := rfl
@[simp] theorem writeStatus_regs (s : State) (v : Word) : (s.writeStatus v).regs = s.regs := rfl
@[simp] theorem writeStatus_dmem (s : State) (v : Word) : (s.writeStatus v).dmem = s.dmem := rfl
@[simp] theorem writeStatus_params (s : State) (v : Word) : (s.writeStatus v).params = s.params := rfl
@[simp] theorem writeStatus_race (s : State) (v : Word) : (s.writeStatus v).race = s.race := rfl
@[simp] theorem writeStatus_inputs (s : State) (v : Word) : (s.writeStatus v).inputs = s.inputs := rfl
@[simp] theorem writeStatus_reads (s : State) (v : Word) : (s.writeStatus v).reads = s.reads := rfl
@[simp] theorem writeStatus_draws (s : State) (v : Word) : (s.writeStatus v).draws = s.draws := rfl

@[simp] theorem writeCtrl_st (s : State) (v : Word) : (s.writeCtrl v).st = s.st := rfl
@[simp] theorem writeCtrl_valid (s : State) (v : Word) : (s.writeCtrl v).valid = s.valid := rfl
@[simp] theorem writeCtrl_wk (s : State) (v : Word) : (s.writeCtrl v).wk = s.wk := rfl
@[simp] theorem writeCtrl_ks (s : State) (v : Word) : (s.writeCtrl v).ks = s.ks := rfl
@[simp] theorem writeCtrl_phase (s : State) (v : Word) : (s.writeCtrl v).phase = s.phase := rfl
@[simp] theorem writeCtrl_lat (s : State) (v : Word) : (s.writeCtrl v).lat = s.lat := rfl
@[simp] theorem writeCtrl_cur (s : State) (v : Word) : (s.writeCtrl v).cur = s.cur := rfl
@[simp] theorem writeCtrl_irqEn (s : State) (v : Word) : (s.writeCtrl v).irqEn = v.getLsbD 0 := rfl
@[simp] theorem writeCtrl_done (s : State) (v : Word) : (s.writeCtrl v).done = s.done := rfl
@[simp] theorem writeCtrl_overrun (s : State) (v : Word) : (s.writeCtrl v).overrun = s.overrun := rfl
@[simp] theorem writeCtrl_err (s : State) (v : Word) : (s.writeCtrl v).err = s.err := rfl
@[simp] theorem writeCtrl_regs (s : State) (v : Word) : (s.writeCtrl v).regs = s.regs := rfl
@[simp] theorem writeCtrl_dmem (s : State) (v : Word) : (s.writeCtrl v).dmem = s.dmem := rfl
@[simp] theorem writeCtrl_params (s : State) (v : Word) : (s.writeCtrl v).params = s.params := rfl
@[simp] theorem writeCtrl_race (s : State) (v : Word) : (s.writeCtrl v).race = s.race := rfl
@[simp] theorem writeCtrl_inputs (s : State) (v : Word) : (s.writeCtrl v).inputs = s.inputs := rfl
@[simp] theorem writeCtrl_reads (s : State) (v : Word) : (s.writeCtrl v).reads = s.reads := rfl
@[simp] theorem writeCtrl_draws (s : State) (v : Word) : (s.writeCtrl v).draws = s.draws := rfl

@[simp] theorem fetch_st (s : State) (a : Nat) : (s.fetch a).st = s.st := rfl
@[simp] theorem fetch_valid (s : State) (a : Nat) : (s.fetch a).valid = s.valid := rfl
@[simp] theorem fetch_wk (s : State) (a : Nat) : (s.fetch a).wk = s.wk := rfl
@[simp] theorem fetch_ks (s : State) (a : Nat) : (s.fetch a).ks = s.ks := rfl
@[simp] theorem fetch_phase (s : State) (a : Nat) : (s.fetch a).phase = s.phase := rfl
@[simp] theorem fetch_lat (s : State) (a : Nat) : (s.fetch a).lat = s.lat := rfl
@[simp] theorem fetch_cur (s : State) (a : Nat) : (s.fetch a).cur = s.cur := rfl
@[simp] theorem fetch_irqEn (s : State) (a : Nat) : (s.fetch a).irqEn = s.irqEn := rfl
@[simp] theorem fetch_done (s : State) (a : Nat) : (s.fetch a).done = s.done := rfl
@[simp] theorem fetch_overrun (s : State) (a : Nat) : (s.fetch a).overrun = s.overrun := rfl
@[simp] theorem fetch_err (s : State) (a : Nat) : (s.fetch a).err = s.err := rfl
@[simp] theorem fetch_regs (s : State) (a : Nat) : (s.fetch a).regs = s.regs := rfl
@[simp] theorem fetch_dmem (s : State) (a : Nat) : (s.fetch a).dmem = s.dmem := rfl
@[simp] theorem fetch_params (s : State) (a : Nat) : (s.fetch a).params = s.params := rfl
@[simp] theorem fetch_race (s : State) (a : Nat) :
    (s.fetch a).race = { s.race with fetched := (a, s.sourceByte a) :: s.race.fetched } := rfl
@[simp] theorem fetch_inputs (s : State) (a : Nat) : (s.fetch a).inputs = s.inputs := rfl
@[simp] theorem fetch_reads (s : State) (a : Nat) : (s.fetch a).reads = s.reads := rfl
@[simp] theorem fetch_draws (s : State) (a : Nat) : (s.fetch a).draws = s.draws := rfl

@[simp] theorem hostSees_st (s : State) (a : Nat) (b : Byte) : (s.hostSees a b).st = s.st := rfl
@[simp] theorem hostSees_valid (s : State) (a : Nat) (b : Byte) : (s.hostSees a b).valid = s.valid := rfl
@[simp] theorem hostSees_wk (s : State) (a : Nat) (b : Byte) : (s.hostSees a b).wk = s.wk := rfl
@[simp] theorem hostSees_ks (s : State) (a : Nat) (b : Byte) : (s.hostSees a b).ks = s.ks := rfl
@[simp] theorem hostSees_phase (s : State) (a : Nat) (b : Byte) : (s.hostSees a b).phase = s.phase := rfl
@[simp] theorem hostSees_lat (s : State) (a : Nat) (b : Byte) : (s.hostSees a b).lat = s.lat := rfl
@[simp] theorem hostSees_cur (s : State) (a : Nat) (b : Byte) : (s.hostSees a b).cur = s.cur := rfl
@[simp] theorem hostSees_irqEn (s : State) (a : Nat) (b : Byte) : (s.hostSees a b).irqEn = s.irqEn := rfl
@[simp] theorem hostSees_done (s : State) (a : Nat) (b : Byte) : (s.hostSees a b).done = s.done := rfl
@[simp] theorem hostSees_overrun (s : State) (a : Nat) (b : Byte) : (s.hostSees a b).overrun = s.overrun := rfl
@[simp] theorem hostSees_err (s : State) (a : Nat) (b : Byte) : (s.hostSees a b).err = s.err := rfl
@[simp] theorem hostSees_regs (s : State) (a : Nat) (b : Byte) : (s.hostSees a b).regs = s.regs := rfl
@[simp] theorem hostSees_dmem (s : State) (a : Nat) (b : Byte) : (s.hostSees a b).dmem = s.dmem := rfl
@[simp] theorem hostSees_params (s : State) (a : Nat) (b : Byte) : (s.hostSees a b).params = s.params := rfl
@[simp] theorem hostSees_race (s : State) (a : Nat) (b : Byte) :
    (s.hostSees a b).race = { s.race with hostView := s.race.hostView.write a b } := rfl
@[simp] theorem hostSees_inputs (s : State) (a : Nat) (b : Byte) : (s.hostSees a b).inputs = s.inputs := rfl
@[simp] theorem hostSees_reads (s : State) (a : Nat) (b : Byte) : (s.hostSees a b).reads = s.reads := rfl
@[simp] theorem hostSees_draws (s : State) (a : Nat) (b : Byte) : (s.hostSees a b).draws = s.draws := rfl

@[simp] theorem setLanded_st (s : State) (l : List Nat) : (s.setLanded l).st = s.st := rfl
@[simp] theorem setLanded_valid (s : State) (l : List Nat) : (s.setLanded l).valid = s.valid := rfl
@[simp] theorem setLanded_wk (s : State) (l : List Nat) : (s.setLanded l).wk = s.wk := rfl
@[simp] theorem setLanded_ks (s : State) (l : List Nat) : (s.setLanded l).ks = s.ks := rfl
@[simp] theorem setLanded_phase (s : State) (l : List Nat) : (s.setLanded l).phase = s.phase := rfl
@[simp] theorem setLanded_lat (s : State) (l : List Nat) : (s.setLanded l).lat = s.lat := rfl
@[simp] theorem setLanded_cur (s : State) (l : List Nat) : (s.setLanded l).cur = s.cur := rfl
@[simp] theorem setLanded_irqEn (s : State) (l : List Nat) : (s.setLanded l).irqEn = s.irqEn := rfl
@[simp] theorem setLanded_done (s : State) (l : List Nat) : (s.setLanded l).done = s.done := rfl
@[simp] theorem setLanded_overrun (s : State) (l : List Nat) : (s.setLanded l).overrun = s.overrun := rfl
@[simp] theorem setLanded_err (s : State) (l : List Nat) : (s.setLanded l).err = s.err := rfl
@[simp] theorem setLanded_regs (s : State) (l : List Nat) : (s.setLanded l).regs = s.regs := rfl
@[simp] theorem setLanded_dmem (s : State) (l : List Nat) : (s.setLanded l).dmem = s.dmem := rfl
@[simp] theorem setLanded_params (s : State) (l : List Nat) : (s.setLanded l).params = s.params := rfl
@[simp] theorem setLanded_race (s : State) (l : List Nat) : (s.setLanded l).race = { s.race with landed := l } := rfl
@[simp] theorem setLanded_inputs (s : State) (l : List Nat) : (s.setLanded l).inputs = s.inputs := rfl
@[simp] theorem setLanded_reads (s : State) (l : List Nat) : (s.setLanded l).reads = s.reads := rfl
@[simp] theorem setLanded_draws (s : State) (l : List Nat) : (s.setLanded l).draws = s.draws := rfl

@[simp] theorem coreStore_st (s : State) (a : Nat) (b : Byte) :
    (s.coreStore a b).st = s.st := by unfold State.coreStore; split <;> rfl
@[simp] theorem coreStore_valid (s : State) (a : Nat) (b : Byte) :
    (s.coreStore a b).valid = s.valid := by unfold State.coreStore; split <;> rfl
@[simp] theorem coreStore_wk (s : State) (a : Nat) (b : Byte) :
    (s.coreStore a b).wk = s.wk := by unfold State.coreStore; split <;> rfl
@[simp] theorem coreStore_ks (s : State) (a : Nat) (b : Byte) :
    (s.coreStore a b).ks = s.ks := by unfold State.coreStore; split <;> rfl
@[simp] theorem coreStore_phase (s : State) (a : Nat) (b : Byte) :
    (s.coreStore a b).phase = s.phase := by unfold State.coreStore; split <;> rfl
@[simp] theorem coreStore_lat (s : State) (a : Nat) (b : Byte) :
    (s.coreStore a b).lat = s.lat := by unfold State.coreStore; split <;> rfl
@[simp] theorem coreStore_cur (s : State) (a : Nat) (b : Byte) :
    (s.coreStore a b).cur = s.cur := by unfold State.coreStore; split <;> rfl
@[simp] theorem coreStore_irqEn (s : State) (a : Nat) (b : Byte) :
    (s.coreStore a b).irqEn = s.irqEn := by unfold State.coreStore; split <;> rfl
@[simp] theorem coreStore_done (s : State) (a : Nat) (b : Byte) :
    (s.coreStore a b).done = s.done := by unfold State.coreStore; split <;> rfl
@[simp] theorem coreStore_overrun (s : State) (a : Nat) (b : Byte) :
    (s.coreStore a b).overrun = s.overrun := by unfold State.coreStore; split <;> rfl
@[simp] theorem coreStore_err (s : State) (a : Nat) (b : Byte) :
    (s.coreStore a b).err = s.err := by unfold State.coreStore; split <;> rfl
@[simp] theorem coreStore_regs (s : State) (a : Nat) (b : Byte) :
    (s.coreStore a b).regs = s.regs := by unfold State.coreStore; split <;> rfl
@[simp] theorem coreStore_params (s : State) (a : Nat) (b : Byte) :
    (s.coreStore a b).params = s.params := by unfold State.coreStore; split <;> rfl
@[simp] theorem coreStore_race (s : State) (a : Nat) (b : Byte) :
    (s.coreStore a b).race = s.race := by unfold State.coreStore; split <;> rfl
@[simp] theorem coreStore_inputs (s : State) (a : Nat) (b : Byte) :
    (s.coreStore a b).inputs = s.inputs := by unfold State.coreStore; split <;> rfl
@[simp] theorem coreStore_reads (s : State) (a : Nat) (b : Byte) :
    (s.coreStore a b).reads = s.reads := by unfold State.coreStore; split <;> rfl
@[simp] theorem coreStore_draws (s : State) (a : Nat) (b : Byte) :
    (s.coreStore a b).draws = s.draws := by unfold State.coreStore; split <;> rfl

@[simp] theorem hostStore_st (s : State) (a : Nat) (b : Byte) :
    (s.hostStore a b).st = s.st := by unfold State.hostStore; dsimp only; split <;> rfl
@[simp] theorem hostStore_valid (s : State) (a : Nat) (b : Byte) :
    (s.hostStore a b).valid = s.valid := by unfold State.hostStore; dsimp only; split <;> rfl
@[simp] theorem hostStore_wk (s : State) (a : Nat) (b : Byte) :
    (s.hostStore a b).wk = s.wk := by unfold State.hostStore; dsimp only; split <;> rfl
@[simp] theorem hostStore_ks (s : State) (a : Nat) (b : Byte) :
    (s.hostStore a b).ks = s.ks := by unfold State.hostStore; dsimp only; split <;> rfl
@[simp] theorem hostStore_phase (s : State) (a : Nat) (b : Byte) :
    (s.hostStore a b).phase = s.phase := by unfold State.hostStore; dsimp only; split <;> rfl
@[simp] theorem hostStore_lat (s : State) (a : Nat) (b : Byte) :
    (s.hostStore a b).lat = s.lat := by unfold State.hostStore; dsimp only; split <;> rfl
@[simp] theorem hostStore_cur (s : State) (a : Nat) (b : Byte) :
    (s.hostStore a b).cur = s.cur := by unfold State.hostStore; dsimp only; split <;> rfl
@[simp] theorem hostStore_irqEn (s : State) (a : Nat) (b : Byte) :
    (s.hostStore a b).irqEn = s.irqEn := by unfold State.hostStore; dsimp only; split <;> rfl
@[simp] theorem hostStore_done (s : State) (a : Nat) (b : Byte) :
    (s.hostStore a b).done = s.done := by unfold State.hostStore; dsimp only; split <;> rfl
@[simp] theorem hostStore_overrun (s : State) (a : Nat) (b : Byte) :
    (s.hostStore a b).overrun = s.overrun := by unfold State.hostStore; dsimp only; split <;> rfl
@[simp] theorem hostStore_err (s : State) (a : Nat) (b : Byte) :
    (s.hostStore a b).err = s.err := by unfold State.hostStore; dsimp only; split <;> rfl
@[simp] theorem hostStore_regs (s : State) (a : Nat) (b : Byte) :
    (s.hostStore a b).regs = s.regs := by unfold State.hostStore; dsimp only; split <;> rfl
@[simp] theorem hostStore_dmem (s : State) (a : Nat) (b : Byte) :
    (s.hostStore a b).dmem = s.dmem.write a b := by unfold State.hostStore; dsimp only; split <;> rfl
@[simp] theorem hostStore_params (s : State) (a : Nat) (b : Byte) :
    (s.hostStore a b).params = s.params := by unfold State.hostStore; dsimp only; split <;> rfl
@[simp] theorem hostStore_inputs (s : State) (a : Nat) (b : Byte) :
    (s.hostStore a b).inputs = s.inputs := by unfold State.hostStore; dsimp only; split <;> rfl
@[simp] theorem hostStore_reads (s : State) (a : Nat) (b : Byte) :
    (s.hostStore a b).reads = s.reads := by unfold State.hostStore; dsimp only; split <;> rfl
@[simp] theorem hostStore_draws (s : State) (a : Nat) (b : Byte) :
    (s.hostStore a b).draws = s.draws := by unfold State.hostStore; dsimp only; split <;> rfl

@[simp] theorem coreReset_st (s : State) : s.coreReset.st = Vector.replicate 16 0 := rfl
@[simp] theorem coreReset_valid (s : State) : s.coreReset.valid = false := rfl
@[simp] theorem coreReset_wk (s : State) : s.coreReset.wk = Vector.replicate 16 0 := rfl
@[simp] theorem coreReset_ks (s : State) : s.coreReset.ks = Vector.replicate 64 0 := rfl
@[simp] theorem coreReset_phase (s : State) : s.coreReset.phase = .idle := rfl
@[simp] theorem coreReset_lat (s : State) : s.coreReset.lat = Latches.reset := rfl
@[simp] theorem coreReset_cur (s : State) : s.coreReset.cur = Cursors.reset := rfl
@[simp] theorem coreReset_irqEn (s : State) : s.coreReset.irqEn = false := rfl
@[simp] theorem coreReset_done (s : State) : s.coreReset.done = false := rfl
@[simp] theorem coreReset_overrun (s : State) : s.coreReset.overrun = false := rfl
@[simp] theorem coreReset_err (s : State) : s.coreReset.err = .ok := rfl
@[simp] theorem coreReset_regs (s : State) : s.coreReset.regs = OperandRegs.reset := rfl
@[simp] theorem coreReset_dmem (s : State) : s.coreReset.dmem = s.dmemAfterReset := rfl
@[simp] theorem coreReset_params (s : State) : s.coreReset.params = s.params := rfl
@[simp] theorem coreReset_race (s : State) : s.coreReset.race = Race.none := rfl
@[simp] theorem coreReset_inputs (s : State) : s.coreReset.inputs = s.inputs := rfl
@[simp] theorem coreReset_reads (s : State) : s.coreReset.reads = s.reads := rfl
@[simp] theorem coreReset_draws (s : State) : s.coreReset.draws = s.draws + s.resetDraws := rfl

/-- The core's write as a memory: DMEM changes unless the byte's final value is the host's. -/
theorem coreStore_dmem (s : State) (a : Nat) (b : Byte) :
    (s.coreStore a b).dmem = if a ∈ s.race.landed then s.dmem else s.dmem.write a b := by
  unfold coreStore; split <;> rfl

@[simp] theorem hostStore_fetched (s : State) (a : Nat) (b : Byte) : (s.hostStore a b).race.fetched = s.race.fetched := by
  unfold hostStore; dsimp only; split <;> rfl

@[simp] theorem hostStore_landed (s : State) (a : Nat) (b : Byte) : (s.hostStore a b).race.landed = s.race.landed := by
  unfold hostStore; dsimp only; split <;> rfl

/-- A host write changes DMEM and the record of the host's writes, nothing else. -/
theorem hostStore_frame (s : State) (a : Nat) (b : Byte) :
    s.hostStore a b = { s with dmem := s.dmem.write a b, race := (s.hostStore a b).race } := by
  unfold hostStore; dsimp only; split <;> rfl

/-- A host write to a busy core goes into the record of DMEM without the core's writes; one to an idle core does not. -/
theorem hostStore_hostView (s : State) (a : Nat) (b : Byte) :
    (s.hostStore a b).race.hostView = if s.busy then s.race.hostView.write a b else s.race.hostView := by
  unfold hostStore busy; dsimp only; split <;> rfl

/-- A host write to an idle core leaves no trace of a race. -/
theorem hostStore_race_idle (s : State) (a : Nat) (b : Byte) (h : s.phase = .idle) : (s.hostStore a b).race = s.race := by
  simp [hostStore, busy, h]

end Sys2Proof.Machine.State
end

