-- ==== Sys2Proof/Laws/CoreStep.lean ====
section
/-! SUPPORT. What a core step can do, said once: the cases of 10_state.md R26. -/

namespace Sys2Proof.Machine

/-- The cursors after a block's last byte (44_stream_loop.md R195). -/
def Cursors.nextBlock (c : Cursors) : Cursors :=
  { rem := c.rem - c.n, scur := c.scur + c.n, dcur := c.dcur + c.n, n := c.n, j := c.j + 1 }

/-- The write an XOR step makes (44_stream_loop.md R194). -/
def State.xorStore (s : State) (hj : s.cur.j < 64) : State :=
  s.coreStore (s.cur.dcur + s.cur.j) (s.sourceByte (s.cur.scur + s.cur.j) ^^^ s.ks[s.cur.j])

/-- Every way a core step answers a next state. -/
inductive CoreMove (s : State) : State → Prop where
  | idle (hp : s.phase = .idle) : CoreMove s s
  | illegal (hp : s.phase = .decode) (e : DecodeError) (hd : decode s.lat.cmd = .reject e) :
      CoreMove s (s.complete .illegal)
  | initKey (hp : s.phase = .decode) (hd : decode s.lat.cmd = .ok .init) (hk : s.lat.keyLen ≠ 32) :
      CoreMove s ({ s with valid := false }.complete .keySize)
  | initNonce (hp : s.phase = .decode) (hd : decode s.lat.cmd = .ok .init) (hk : s.lat.keyLen = 32)
      (hn : s.lat.nonceLen ≠ 12) : CoreMove s ({ s with valid := false }.complete .nonceSize)
  | initOk (hp : s.phase = .decode) (hd : decode s.lat.cmd = .ok .init) (hk : s.lat.keyLen = 32)
      (hn : s.lat.nonceLen = 12) : CoreMove s ({ s with st := initWords s.lat, valid := true }.complete .ok)
  | blockNone (hp : s.phase = .decode) (hd : decode s.lat.cmd = .ok .block) (hv : s.valid = false) :
      CoreMove s (s.complete .notInit)
  | blockOk (hp : s.phase = .decode) (hd : decode s.lat.cmd = .ok .block) (hv : s.valid = true) :
      CoreMove s (s.runBlock.complete .ok)
  | applyEnd (hp : s.phase = .decode) (hd : decode s.lat.cmd = .ok .apply) (c : ErrCode)
      (hv : s.applyVerdict = some c) : CoreMove s (s.complete c)
  | applyStart (hp : s.phase = .decode) (hd : decode s.lat.cmd = .ok .apply) (hv : s.applyVerdict = none) :
      CoreMove s
        { s with cur := { s.cur with rem := s.msgLen, scur := s.srcBase, dcur := s.dstBase }, phase := .gen }
  | gen (hp : s.phase = .gen) : CoreMove s s.genStep
  | xorByte (hp : s.phase = .xor) (hj : s.cur.j < 64) (hs : s.cur.scur + s.cur.j < s.params.dmemSize)
      (hd : s.cur.dcur + s.cur.j < s.params.dmemSize) (hn : s.cur.j + 1 ≠ s.cur.n) :
      CoreMove s { s.xorStore hj with cur := { s.cur with j := s.cur.j + 1 } }
  | xorBlock (hp : s.phase = .xor) (hj : s.cur.j < 64) (hs : s.cur.scur + s.cur.j < s.params.dmemSize)
      (hd : s.cur.dcur + s.cur.j < s.params.dmemSize) (hn : s.cur.j + 1 = s.cur.n) (hr : s.cur.rem - s.cur.n ≠ 0) :
      CoreMove s { s.xorStore hj with cur := s.cur.nextBlock, phase := .gen }
  | xorEnd (hp : s.phase = .xor) (hj : s.cur.j < 64) (hs : s.cur.scur + s.cur.j < s.params.dmemSize)
      (hd : s.cur.dcur + s.cur.j < s.params.dmemSize) (hn : s.cur.j + 1 = s.cur.n) (hr : s.cur.rem - s.cur.n = 0) :
      CoreMove s ({ s.xorStore hj with cur := s.cur.nextBlock }.complete .ok)

/-- An XOR step inside DMEM, by the three ends of 44_stream_loop.md R195. -/
theorem xorStep_eq (s : State) (hj : s.cur.j < 64) (hs : s.cur.scur + s.cur.j < s.params.dmemSize)
    (hd : s.cur.dcur + s.cur.j < s.params.dmemSize) :
    s.xorStep = .next
      (if s.cur.j + 1 = s.cur.n then
        (if s.cur.rem - s.cur.n = 0 then { s.xorStore hj with cur := s.cur.nextBlock }.complete .ok
         else { s.xorStore hj with cur := s.cur.nextBlock, phase := .gen })
       else { s.xorStore hj with cur := { s.cur with j := s.cur.j + 1 } }) := by
  simp only [State.xorStep, dif_pos hj, if_neg (Nat.not_le.2 hs), if_neg (Nat.not_le.2 hd)]
  change Host.Outcome.next (s.xorStore hj).endOfByte = _
  have hc : (s.xorStore hj).cur = s.cur := by simp [State.xorStore]
  simp only [State.endOfByte, hc, Cursors.nextBlock]

/-- INIT by the lengths the spec names (41_state_initializer.md R124). -/
theorem execInit_eq (s : State) :
    execInit s =
      if s.lat.keyLen ≠ 32 then .next ({ s with valid := false }.complete .keySize)
      else if s.lat.nonceLen ≠ 12 then .next ({ s with valid := false }.complete .nonceSize)
      else .next ({ s with st := initWords s.lat, valid := true }.complete .ok) := rfl

/-- A core step answers a next state only in one of these ways. -/
theorem coreStep_move {s t : State} (h : coreStep s = .next t) : CoreMove s t := by
  cases hp : s.phase with
  | idle => simp only [coreStep, hp] at h; cases h; exact .idle hp
  | decode =>
    simp only [coreStep, hp, State.decodeStep] at h
    cases hd : decode s.lat.cmd with
    | reject e => simp only [hd] at h; cases h; exact .illegal hp e hd
    | ok i =>
      simp only [hd] at h
      cases i with
      | init =>
        simp only [exec, execInit_eq] at h
        split at h
        · cases h; exact .initKey hp hd ‹_›
        · rename_i hk
          split at h
          · cases h; exact .initNonce hp hd (not_not.1 hk) ‹_›
          · rename_i hn; cases h; exact .initOk hp hd (not_not.1 hk) (not_not.1 hn)
      | block =>
        simp only [exec, execBlock] at h
        split at h
        · cases h; exact .blockNone hp hd ‹_›
        · rename_i hv; cases h; exact .blockOk hp hd (by simpa using hv)
      | apply =>
        simp only [exec, execApply, hp, State.applyValidate] at h
        cases hv : s.applyVerdict with
        | some c => simp only [hv] at h; cases h; exact .applyEnd hp hd c hv
        | none => simp only [hv] at h; cases h; exact .applyStart hp hd hv
  | gen => simp only [coreStep, hp, exec, execApply] at h; cases h; exact .gen hp
  | xor =>
    simp only [coreStep, hp, exec, execApply] at h
    have h' := h
    simp only [State.xorStep] at h'
    split at h'
    · rename_i hj
      split at h'
      · cases h'
      · rename_i hs
        split at h'
        · cases h'
        · rename_i hd
          rw [xorStep_eq s hj (Nat.not_le.1 hs) (Nat.not_le.1 hd)] at h
          split at h
          · split at h
            · cases h; exact .xorEnd hp hj (Nat.not_le.1 hs) (Nat.not_le.1 hd) ‹_› ‹_›
            · cases h; exact .xorBlock hp hj (Nat.not_le.1 hs) (Nat.not_le.1 hd) ‹_› ‹_›
          · cases h; exact .xorByte hp hj (Nat.not_le.1 hs) (Nat.not_le.1 hd) ‹_›
    · cases h'

end Sys2Proof.Machine
end

