-- ==== Sys2Proof/Laws/Decode.lean ====
section
/-! SUPPORT. A command word is its two fields. -/

namespace Sys2Proof

/-- The fields of 30_encoding.md R91 are the whole word. -/
theorem word_eq_fields (w : Word) : w = mbzField w ++ opcodeField w := by
  unfold mbzField opcodeField
  apply BitVec.eq_of_getLsbD_eq
  intro i hi
  rw [BitVec.getLsbD_append]
  by_cases h : i < 4
  · simp [h]
  · have h1 : 4 + (i - 4) = i := by omega
    have h2 : i - 4 < 28 := by omega
    simp [h, h1, h2]

end Sys2Proof
end

