-- ==== Sys2Proof/Laws/Memory.lean ====
section
/-! SUPPORT. The laws of DMEM: a read after a write, and that a write keeps the canonical form. -/

namespace Sys2Proof.Machine.Memory

/-- A list that starts at `lo` starts at any lower address. -/
theorem wfFrom_mono {lo lo' : Nat} {m : Memory} (h : wfFrom lo m = true) (hl : lo' ≤ lo) : wfFrom lo' m = true := by
  cases m with
  | nil => rfl
  | cons c rest =>
    simp only [wfFrom, Bool.and_eq_true, decide_eq_true_eq] at h ⊢
    exact ⟨⟨by omega, h.1.2⟩, h.2⟩

/-- An address before the first listed one reads as unlisted. -/
theorem read_of_lt {lo a : Nat} {m : Memory} (h : wfFrom lo m = true) (ha : a < lo) : read m a = unlistedByte := by
  cases m with
  | nil => rfl
  | cons c rest =>
    simp only [wfFrom, Bool.and_eq_true, decide_eq_true_eq] at h
    have h1 : a ≠ c.1 := by omega
    have h2 : a < c.1 := by omega
    simp [read, h1, h2]

/-- A read after a write: the byte written at its address, every other byte as before. -/
theorem read_write_from {lo : Nat} {m : Memory} (h : wfFrom lo m = true) (a : Nat) (b : Byte) (c : Nat) :
    read (write m a b) c = if c = a then b else read m c := by
  induction m generalizing lo with
  | nil =>
    by_cases hb : b = unlistedByte <;> by_cases hc : c = a <;> simp [write, read, hb, hc]
  | cons x rest ih =>
    obtain ⟨k, v⟩ := x
    simp only [wfFrom, Bool.and_eq_true, decide_eq_true_eq] at h
    obtain ⟨⟨_, _⟩, hr⟩ := h
    rcases lt_trichotomy a k with hak | hak | hak
    · have h1 : a ≠ k := by omega
      by_cases hb : b = unlistedByte
      · by_cases hc : c = a
        · simp [write, read, h1, hak, hb, hc]
        · simp [write, h1, hak, hb, hc]
      · by_cases hc : c = a
        · simp [write, read, h1, hak, hb, hc]
        · by_cases hlt : c < a
          · have h2 : c ≠ k := by omega
            have h3 : c < k := by omega
            simp [write, read, h1, hak, hb, hc, hlt, h2, h3]
          · simp [write, read, h1, hak, hb, hc, hlt]
    · subst hak
      by_cases hb : b = unlistedByte
      · rcases lt_trichotomy c a with hc | hc | hc
        · have h2 : c ≠ a := by omega
          have h3 := read_of_lt hr (a := c) (by omega)
          simp [write, read, hb, h2, hc, h3]
        · subst hc
          have h3 := read_of_lt hr (a := c) (by omega)
          simp [write, hb, h3]
        · have h2 : c ≠ a := by omega
          have h3 : ¬c < a := by omega
          simp [write, read, hb, h2, h3]
      · by_cases hc : c = a <;> simp [write, read, hb, hc]
    · have h1 : a ≠ k := by omega
      have h2 : ¬a < k := by omega
      simp only [write, h1, h2, if_false, read]
      by_cases hck : c = k
      · have h3 : c ≠ a := by omega
        simp [hck, h1.symm]
      · by_cases hlt : c < k
        · have h3 : c ≠ a := by omega
          simp [hck, hlt, h3]
        · simp [hck, hlt, ih hr]

theorem read_write {m : Memory} (h : m.wf = true) (a : Nat) (b : Byte) (c : Nat) :
    (m.write a b).read c = if c = a then b else m.read c := read_write_from h a b c

theorem read_write_same {m : Memory} (h : m.wf = true) (a : Nat) (b : Byte) : (m.write a b).read a = b := by
  simp [read_write h]

theorem read_write_other {m : Memory} (h : m.wf = true) {a c : Nat} (b : Byte) (hc : c ≠ a) :
    (m.write a b).read c = m.read c := by simp [read_write h, hc]

/-- A write keeps the canonical form from any bound its address respects. -/
theorem wfFrom_write {lo : Nat} {m : Memory} (h : wfFrom lo m = true) {a : Nat} (ha : lo ≤ a) (b : Byte) :
    wfFrom lo (write m a b) = true := by
  induction m generalizing lo with
  | nil => by_cases hb : b = unlistedByte <;> simp [write, wfFrom, hb, ha]
  | cons x rest ih =>
    obtain ⟨k, v⟩ := x
    have h' := h
    simp only [wfFrom, Bool.and_eq_true, decide_eq_true_eq] at h
    obtain ⟨⟨hk, hv⟩, hr⟩ := h
    rcases lt_trichotomy a k with hak | hak | hak
    · have h1 : a ≠ k := by omega
      by_cases hb : b = unlistedByte
      · simpa [write, h1, hak, hb] using h'
      · have h2 : a + 1 ≤ k := by omega
        simp only [bne_iff_ne, ne_eq] at hv
        simp [write, h1, hak, hb, wfFrom, ha, h2, hv, hr]
    · subst hak
      by_cases hb : b = unlistedByte
      · simpa [write, hb] using wfFrom_mono hr (by omega)
      · simp [write, hb, wfFrom, ha, hr]
    · have h1 : a ≠ k := by omega
      have h2 : ¬a < k := by omega
      simp only [write, h1, h2, if_false, wfFrom, Bool.and_eq_true, decide_eq_true_eq]
      exact ⟨⟨hk, hv⟩, ih hr (by omega)⟩

theorem wf_write {m : Memory} (h : m.wf = true) (a : Nat) (b : Byte) : (m.write a b).wf = true :=
  wfFrom_write h (Nat.zero_le a) b

/-- A write below `size` keeps every listed address below `size`. -/
theorem below_write {size : Nat} {m : Memory} (h : m.below size = true) {a : Nat} (ha : a < size) (b : Byte) :
    (m.write a b).below size = true := by
  induction m with
  | nil => by_cases hb : b = unlistedByte <;> simp [write, below, hb, ha]
  | cons x rest ih =>
    obtain ⟨k, v⟩ := x
    simp only [below, List.all_cons, Bool.and_eq_true, decide_eq_true_eq] at h ih ⊢
    obtain ⟨hk, hr⟩ := h
    rcases lt_trichotomy a k with hak | hak | hak
    · have h1 : a ≠ k := by omega
      by_cases hb : b = unlistedByte
      · simp [write, h1, hak, hb, hk, hr]
      · simp only [write, h1, hak, hb, if_true, if_false, List.all_cons, Bool.and_eq_true, decide_eq_true_eq]
        exact ⟨ha, hk, hr⟩
    · subst hak
      by_cases hb : b = unlistedByte
      · simpa [write, hb] using hr
      · simp only [write, hb, if_true, if_false, List.all_cons, Bool.and_eq_true, decide_eq_true_eq]
        exact ⟨ha, hr⟩
    · have h1 : a ≠ k := by omega
      have h2 : ¬a < k := by omega
      simp only [write, h1, h2, if_false, List.all_cons, Bool.and_eq_true, decide_eq_true_eq]
      exact ⟨hk, ih hr⟩

end Sys2Proof.Machine.Memory
end

