-- ==== Sys2Proof/Laws/HostRaces.lean ====
section
/-! SUPPORT. What a racing host write can do (20_memory.md R71, log 7), said once for each of its two sides, and what a
sound running APPLY says of its two ranges. -/

namespace Sys2Proof.Machine

/-- A running APPLY is not idle. -/
theorem applyRunning_busy {s : State} (h : s.applyRunning = true) : s.phase ≠ .idle := by
  intro hp
  simp [State.applyRunning, hp] at h

/-- Both ranges of a sound running APPLY lie in DMEM and are the same or apart (44_stream_loop.md R191). -/
theorem applyRunning_ranges {s : State} (hi : s.Inv) (h : s.applyRunning = true) :
    s.srcBase + s.msgLen ≤ s.params.dmemSize ∧ s.dstBase + s.msgLen ≤ s.params.dmemSize ∧
      ¬(s.srcBase ≠ s.dstBase ∧ s.srcBase < s.dstBase + s.msgLen ∧ s.dstBase < s.srcBase + s.msgLen) := by
  have h4 := hi.2.2.2.1
  cases hp : s.phase <;>
    simp only [State.applyRunning, hp, State.phaseOk, Bool.and_eq_true, State.loopOk, State.buffersOk, inRange_iff,
      Bool.not_eq_true', ← Bool.not_eq_true, partialOverlap_iff] at h h4
  · cases h
  · have hv := (applyVerdict_none_iff s).1 (by simpa using h.2)
    exact ⟨hv.2.2.1, hv.2.2.2.1, hv.2.2.2.2⟩
  · exact ⟨h4.2.1.2.1.1, h4.2.1.2.1.2, h4.2.1.2.2⟩
  · exact ⟨h4.1.1.2.1.2.1.1, h4.1.1.2.1.2.1.2, h4.1.1.2.1.2.2⟩

/-- The source side changes only which source bytes are fetched. -/
theorem racingSource_frame (s : State) (a : Nat) (seen : Bool) :
    ∃ l, s.racingSource a seen = { s with race := { s.race with fetched := l } } := by
  unfold State.racingSource
  split <;> exact ⟨_, rfl⟩

/-- The source side at a source byte: one already read stays as it is, one not yet read is fetched unless it is to be
seen. -/
theorem racingSource_at {s : State} {a : Nat} (hs : s.inSource a = true) (seen : Bool) :
    s.racingSource a seen = if a - s.srcBase < s.applied ∨ seen = true then s else s.fetch a := by
  unfold State.racingSource
  by_cases h : a - s.srcBase < s.applied
  · simp [h, Nat.not_le.2 h]
  · cases seen <;> simp [hs, h, Nat.le_of_not_lt h]

/-- The destination side at a busy core: DMEM and the race record change, at the one byte only; a byte the core has written
holds the final value at once, and one it has not holds the host's value, with the core's write to land or not. -/
structure RacingDest (s : State) (a : Nat) (b : Byte) (hostFinal : Bool) (t : State) : Prop where
  frame : t = { s with dmem := t.dmem, race := t.race }
  wf : t.dmem.wf = true
  fetched : t.race.fetched = s.race.fetched
  hostView : t.race.hostView = s.race.hostView.write a b
  others : ∀ c, c ≠ a → t.dmem.read c = s.dmem.read c ∧ (c ∈ t.race.landed ↔ c ∈ s.race.landed)
  fresh : s.inDest a = false ∨ s.applied ≤ a - s.dstBase → t.dmem.read a = b
  written : s.inDest a = true → a - s.dstBase < s.applied →
    t.dmem.read a = if hostFinal then b else s.dmem.read a
  lands : s.inDest a = true → s.applied ≤ a - s.dstBase → (a ∈ t.race.landed ↔ hostFinal = true)

theorem racingDest_spec {s : State} (hb : s.busy = true) (hw : s.dmem.wf = true) (a : Nat) (b : Byte)
    (hostFinal : Bool) : RacingDest s a b hostFinal (s.racingDest a b hostFinal) := by
  have e := State.hostStore_frame s a b
  unfold State.racingDest
  dsimp only
  split
  · rename_i hd
    by_cases hwr : a - s.dstBase < s.applied <;> cases hostFinal <;> constructor <;>
      simp [hwr, hd, State.hostStore_hostView, hb, Memory.read_write hw, hw, Memory.wf_write hw] <;>
      (try simp +contextual) <;> first | exact e | (rw [e]; simp [State.setLanded, State.hostStore_hostView, hb]) | rfl
  · rename_i hd
    constructor <;> simp [hd, State.hostStore_hostView, hb, Memory.read_write hw, Memory.wf_write hw] <;>
      first | exact e | simp +contextual

end Sys2Proof.Machine
end

