-- ==== Sys2Proof/Laws/HostRegisters.lean ====
section
/-! SUPPORT. A host register access at a named register, so that no later proof unfolds the register map. -/

namespace Sys2Proof.Machine

theorem ofOffset_offset (r : Reg) : Reg.ofOffset r.offset = some r := by
  cases r with
  | key k => fin_cases k <;> rfl
  | nonce k => fin_cases k <;> rfl
  | state k => fin_cases k <;> rfl
  | ks k => fin_cases k <;> rfl
  | _ => rfl

theorem regAccessOk_iff (off size : Nat) : regAccessOk off size = true ↔ size = 4 ∧ off % 4 = 0 ∧ off < 256 := by
  have h : Config.regWindow = 256 := rfl
  simp only [regAccessOk, Bool.and_eq_true, beq_iff_eq, decide_eq_true_eq, and_assoc, h]

theorem regAccessOk_offset (r : Reg) : regAccessOk r.offset 4 = true := by
  cases r with
  | key k => fin_cases k <;> decide
  | nonce k => fin_cases k <;> decide
  | state k => fin_cases k <;> decide
  | ks k => fin_cases k <;> decide
  | _ => decide

/-- The register an aligned offset of the window names stands at that offset. -/
theorem ofOffset_some {off n : Nat} {r : Reg} (hok : regAccessOk off n = true) (h : Reg.ofOffset off = some r) :
    off = r.offset := by
  obtain ⟨-, h4, hlt⟩ := (regAccessOk_iff off n).1 hok
  have table : ∀ k : Fin 64, (Reg.ofOffset (4 * k.val)).all (fun r => decide (4 * k.val = r.offset)) = true := by decide
  have := table ⟨off / 4, by omega⟩
  simpa [show 4 * (off / 4) = off by omega, h] using this

/-- A write to a named register stores through writeReg. -/
theorem regWrite_at (s : State) (r : Reg) (v : Word) :
    runEvent (.regWrite r.offset 4 v) s = .next (s.writeReg v r) := by
  simp only [runEvent, hostRegWrite, if_pos (regAccessOk_offset r), ofOffset_offset]

/-- A read of a named register records regValue. -/
theorem regRead_at (s : State) (r : Reg) :
    runEvent (.regRead r.offset 4) s =
      .next { s with draws := s.draws + s.regDraws r, reads := .reg r.offset (s.regValue r) :: s.reads } := by
  simp only [runEvent, hostRegRead, if_pos (regAccessOk_offset r), ofOffset_offset]
  rfl

end Sys2Proof.Machine
end

