-- ==== Sys2Proof/Laws/HostStep.lean ====
section
/-! SUPPORT. What an event of the host can do, said once, and what a step of the machine can do. -/

namespace Sys2Proof.Machine

/-- A host access to DMEM, or a read: of the core's own state nothing changes, DMEM and the record of it without the core's
writes stay canonical, DMEM stays inside its size, and no race is recorded while the core is idle. -/
structure HostMove (s t : State) : Prop where
  frame : t = { s with dmem := t.dmem, race := t.race, reads := t.reads, draws := t.draws }
  wf : s.dmem.wf = true → t.dmem.wf = true
  below : s.dmem.below s.params.dmemSize = true → t.dmem.below s.params.dmemSize = true
  race : s.phase = .idle → t.race = s.race
  view : s.race.hostView.wf = true → t.race.hostView.wf = true

theorem HostMove.refl (s : State) : HostMove s s := ⟨rfl, id, id, fun _ => rfl, id⟩

theorem HostMove.trans {s t u : State} (h : HostMove s t) (k : HostMove t u) : HostMove s u := by
  have hp : t.params = s.params := by rw [h.frame]
  have hph : t.phase = s.phase := by rw [h.frame]
  refine ⟨?_, fun hw => k.wf (h.wf hw), fun hb => hp ▸ k.below (hp ▸ h.below hb),
    fun hi => (k.race (hph ▸ hi)).trans (h.race hi), fun hv => k.view (h.view hv)⟩
  rw [k.frame, h.frame]

theorem hostStore_move (s : State) (a : Nat) (b : Byte) (ha : a < s.params.dmemSize) : HostMove s (s.hostStore a b) :=
  ⟨by unfold State.hostStore; dsimp only; split <;> rfl, fun hw => by simpa using Memory.wf_write hw a b,
    fun hb => by simpa using Memory.below_write hb ha b, fun h => State.hostStore_race_idle s a b h,
    fun hv => by rw [State.hostStore_hostView]; split <;> first | exact Memory.wf_write hv a b | exact hv⟩

theorem hostDmemRead_move {a : Nat} {s t : State} (h : hostDmemRead a s = .next t) : HostMove s t := by
  unfold hostDmemRead at h
  split at h
  · cases h
  · split at h
    · rename_i hr
      simp only [Bool.and_eq_true] at hr
      have hr' := hr.1
      cases h
      refine ⟨?_, ?_, ?_, fun hi => absurd hi (applyRunning_busy hr'), ?_⟩ <;> unfold State.racingRead <;> dsimp only <;>
        split <;> (try split) <;> first | rfl | (intro hh; simpa using hh)
    · cases h; exact ⟨rfl, id, id, fun _ => rfl, id⟩

theorem hostDmemWrite_move {a : Nat} {b : Byte} {s t : State} (h : hostDmemWrite a b s = .next t) : HostMove s t := by
  unfold hostDmemWrite at h
  split at h
  · cases h
  · rename_i ha
    split at h
    · rename_i hr
      simp only [Bool.and_eq_true] at hr
      have hr' := applyRunning_busy hr.1
      cases h
      unfold State.racingWrite
      obtain ⟨l, hr2⟩ := racingSource_frame { s with draws := s.draws + 2 } a (Config.freeBit s.draws)
      rw [hr2]
      have hu : HostMove s { s with draws := s.draws + 2, race := { s.race with fetched := l } } :=
        ⟨rfl, id, id, fun hi => absurd hi hr', id⟩
      refine hu.trans ?_
      generalize hg : ({ s with draws := s.draws + 2, race := { s.race with fetched := l } } : State) = u at *
      have ha' : a < u.params.dmemSize := by rw [← hg]; exact Nat.not_le.1 ha
      have hi' : u.phase ≠ .idle := by rw [← hg]; exact hr'
      have hs := hostStore_move u a b ha'
      unfold State.racingDest
      dsimp only
      split
      · split
        · split
          · exact hs
          · exact hs.trans ⟨rfl, id, id, fun hi => absurd (by simpa using hi) hi', id⟩
        · split
          · exact ⟨rfl, id, id, fun hi => absurd hi hi', fun hv => Memory.wf_write hv a b⟩
          · exact hs.trans ⟨rfl, id, id, fun hi => absurd (by simpa using hi) hi', id⟩
      · exact hs
    · cases h; exact hostStore_move s a b (Nat.not_le.1 ha)

/-- Two steps in sequence answer a next state exactly through one between them. -/
theorem andThen_next {r : Result} {f : State → Result} {t : State} (h : andThen r f = .next t) :
    ∃ u, r = .next u ∧ f u = .next t := by
  cases r with
  | next u => exact ⟨u, rfl, h⟩
  | fault e => cases h
  | refused e => cases h

theorem hostBusDmemRead_move (n a : Nat) (s t : State) (h : hostBusDmemRead a n s = .next t) : HostMove s t := by
  induction n generalizing a s with
  | zero => cases h; exact .refl _
  | succ n ih =>
    obtain ⟨u, h1, h2⟩ := andThen_next h
    refine HostMove.trans ?_ (ih _ _ h2)
    split at h1
    · exact hostDmemRead_move h1
    · cases h1; exact .refl s

theorem hostBusDmemWrite_move (bytes : List Byte) (a : Nat) (s t : State)
    (h : hostBusDmemWrite a bytes s = .next t) : HostMove s t := by
  induction bytes generalizing a s with
  | nil => cases h; exact .refl _
  | cons b rest ih =>
    obtain ⟨u, h1, h2⟩ := andThen_next h
    refine HostMove.trans ?_ (ih _ _ h2)
    split at h1
    · exact hostDmemWrite_move h1
    · cases h1; exact .refl s

/-- A host write to CMD: the 32-bit write at offset 0x008, or the bus write that is that write (10_state.md R30). -/
def State.cmdWriteBy (s : State) (e : Event) : Prop :=
  (∃ w : Word, e = .regWrite 0x008 4 w) ∨
    ∃ b0 b1 b2 b3 : Byte, e = .busWrite (s.params.regBase + 0x008) [b0, b1, b2, b3]

/-- Every way a host event answers a next state; only a CMD write can be accepted or set OVERRUN. -/
inductive Move (s : State) (e : Event) : State → Prop where
  | mem {t} (h : HostMove s t) : Move s e t
  | wait (r) (l) : Move s e { s with reads := r, inputs := l }
  | ctrl (v) : Move s e (s.writeCtrl v)
  | status (v) : Move s e (s.writeStatus v)
  | accept (hp : s.phase = .idle) (he : s.cmdWriteBy e) (w) : Move s e (s.accept w)
  | overrun (hp : s.phase ≠ .idle) (he : s.cmdWriteBy e) : Move s e { s with overrun := true }
  | regs (r) : Move s e { s with regs := r }

theorem hostRegRead_move {off n : Nat} {s t : State} (h : hostRegRead off n s = .next t) : HostMove s t := by
  unfold hostRegRead at h
  split at h
  · split at h <;> cases h <;> exact ⟨rfl, id, id, fun _ => rfl, id⟩
  · cases h

theorem hostRegWrite_move {off n : Nat} {v : Word} {e : Event} {s t : State}
    (he : off = 0x008 → n = 4 → s.cmdWriteBy e) (h : hostRegWrite off n v s = .next t) : Move s e t := by
  unfold hostRegWrite at h
  split at h
  · rename_i hok
    split at h
    · rename_i r hr
      cases h
      cases r <;> simp only [State.writeReg]
      case ctrl => exact .ctrl v
      case status => exact .status v
      case cmd =>
        have he := he (ofOffset_some hok hr) ((regAccessOk_iff off n).1 hok).1
        unfold State.issue
        split
        · rename_i hb; exact .overrun (by simpa [State.busy] using hb) he
        · rename_i hb; exact .accept (by simpa [State.busy] using hb) he v
      case state => exact .mem (.refl s)
      case ks => exact .mem (.refl s)
      all_goals exact .regs _
    · cases h; exact .mem (.refl s)
  · cases h

theorem hostBusWrite_move {a : Nat} {bs : List Byte} {s t : State} (h : hostBusWrite a bs s = .next t) :
    Move s (.busWrite a bs) t := by
  unfold hostBusWrite at h
  split at h
  · cases h
  · split at h
    · split at h
      · refine hostRegWrite_move (fun ho hn => .inr ?_) h
        match bs, hn with
        | [b0, b1, b2, b3], _ => exact ⟨b0, b1, b2, b3, by rw [show a = s.params.regBase + 0x008 by omega]⟩
      · cases h
    · exact .mem (hostBusDmemWrite_move _ _ _ _ h)

/-- An event answers a next state as a core step, as a reset, or as a host move. -/
theorem runEvent_move {e : Event} {s t : State} (h : runEvent e s = .next t) :
    ((e = .core ∨ e = .coreDmemRefused) ∧ coreStep s = .next t) ∨ (e = .reset ∧ t = s.coreReset) ∨ Move s e t := by
  cases e with
  | core => exact .inl ⟨.inl rfl, h⟩
  | coreDmemRefused =>
    refine .inl ⟨.inr rfl, ?_⟩
    simp only [runEvent, coreStepDmemRefused] at h
    split at h <;> first | cases h | exact h
  | regRead off n => exact .inr (.inr (.mem (hostRegRead_move h)))
  | regWrite off n v => exact .inr (.inr (hostRegWrite_move (fun ho hn => .inl ⟨v, by rw [ho, hn]⟩) h))
  | dmemRead a => exact .inr (.inr (.mem (hostDmemRead_move h)))
  | dmemWrite a b => exact .inr (.inr (.mem (hostDmemWrite_move h)))
  | busRead a n =>
    right; right
    simp only [runEvent, hostBusRead] at h
    split at h
    · cases h
    · split at h
      · split at h
        · exact .mem (hostRegRead_move h)
        · cases h
      · exact .mem (hostBusDmemRead_move _ _ _ _ h)
  | busWrite a bs => exact .inr (.inr (hostBusWrite_move h))
  | wait =>
    right; right
    simp only [runEvent, hostWait] at h
    split at h <;> cases h
    · exact .wait _ _
    · exact .wait _ s.inputs
  | reset => cases h; exact .inr (.inl ⟨rfl, rfl⟩)

/-- A step of the machine is one event at the state with that event taken from the schedule: a core step where it is the
core's turn, a scheduled reset, or a host event. -/
theorem step_move {s t : State} (h : step s = .next t) :
    ∃ u, (u = s ∨ ∃ l, u = { s with inputs := l }) ∧
      ((s.coreTakesStep ∧ coreStep u = .next t) ∨ ((∃ rest, s.inputs = .reset :: rest) ∧ t = u.coreReset) ∨
        ∃ e, Move u e t) := by
  unfold step at h
  split at h
  · exact ⟨s, .inl rfl, .inl ⟨.inl ‹_›, h⟩⟩
  · rename_i e rest he
    refine ⟨_, .inr ⟨rest, rfl⟩, ?_⟩
    rcases runEvent_move h with ⟨hc, h'⟩ | ⟨he', h'⟩ | h'
    · exact .inl ⟨.inr ⟨rest, by rcases hc with rfl | rfl <;> simp [he]⟩, h'⟩
    · exact .inr (.inl ⟨⟨rest, he' ▸ he⟩, h'⟩)
    · exact .inr (.inr ⟨e, h'⟩)

end Sys2Proof.Machine
end

