-- ==== Sys2Proof/Laws/PerInstr.lean ====
section
/-! SUPPORT. What holds of every command as syntax, one lemma per command. -/

namespace Sys2Proof.Laws.Encoding

/-- The word of a command is legal: MBZ is zero and OPCODE is the command's (30_encoding.md R91, R93, R94). -/
def Statement (i : Instr) : Prop :=
  i.wf = true ∧ legalWord (encode i) = true ∧ mbzField (encode i) = 0 ∧ opcodeField (encode i) = i.opcode

theorem init : Statement .init := by
  unfold Statement
  decide

theorem block : Statement .block := by
  unfold Statement
  decide

theorem apply : Statement .apply := by
  unfold Statement
  decide

end Sys2Proof.Laws.Encoding
end

