-- ==== Sys2Proof/Laws/Run.lean ====
section
/-! SUPPORT. Runs of several steps, and DMEM after a reset has filled an abandoned range. -/

namespace Sys2Proof.Machine

/-- With nothing scheduled a step is the core's (70_reset_and_hazards.md R275). -/
theorem step_alone {s : State} (h : s.inputs = []) : step s = coreStep s := by
  unfold step
  rw [h]

/-- A run that begins with a step that answers a next state goes on from it. -/
theorem run_succ {s t : State} {k : Nat} (h : step s = .next t) :
    Host.Core.run Sys2Proof.core (k + 1) s = Host.Core.run Sys2Proof.core k t := by
  have h' : Sys2Proof.core.step s = .next t := h
  simp only [Host.Core.run.eq_def Sys2Proof.core (k + 1) s, h']

/-- A filled range reads as its free bytes, every other byte as before, and DMEM stays canonical. -/
theorem fillFree_read {m : Memory} (hw : m.wf = true) (base d len : Nat) :
    (fillFree m base d len).wf = true ∧
      ∀ a, (fillFree m base d len).read a =
        if base ≤ a ∧ a < base + len then Config.freeByte (d + (a - base)) else m.read a := by
  induction len with
  | zero => exact ⟨hw, fun a => by rw [if_neg (by omega)]; rfl⟩
  | succ n ih =>
    refine ⟨Memory.wf_write ih.1 _ _, fun a => ?_⟩
    simp only [fillFree, Memory.read_write ih.1, ih.2]
    by_cases h : a = base + n
    · subst h; simp
    · rw [if_neg h]
      by_cases h2 : base ≤ a ∧ a < base + n
      · rw [if_pos h2, if_pos (by omega)]
      · rw [if_neg h2, if_neg (by omega)]

/-- A filled range inside DMEM keeps every listed address below its size. -/
theorem fillFree_below {m : Memory} {size : Nat} (hb : m.below size = true) (base d len : Nat)
    (h : base + len ≤ size) : (fillFree m base d len).below size = true := by
  induction len with
  | zero => exact hb
  | succ n ih => exact Memory.below_write (ih (by omega)) (by omega) _

end Sys2Proof.Machine
end

