-- ==== Sys2Proof/Tests/Slice0.lean ====
section
/-! SUPPORT. Tests on small states, with the expected values of the spec, and for every statement with hypotheses a
witness that meets them. -/

namespace Sys2Proof.Machine

/-! ### Well-formedness: an ill-formed term for each check -/

theorem test_legalWord_takes_the_commands : legalWord 1 = true ∧ legalWord 2 = true ∧ legalWord 3 = true := by decide

theorem test_legalWord_refuses_reserved_opcodes :
    legalWord 0 = false ∧ legalWord 4 = false ∧ legalWord 0xF = false := by decide

theorem test_legalWord_refuses_mbz :
    legalWord 0x11 = false ∧ legalWord 0x80000003 = false ∧ legalWord 0xFFFFFFFF = false := by decide

theorem test_instr_wf : ∀ i ∈ [Instr.init, Instr.block, Instr.apply], i.wf = true ∧ legalWord (encode i) = true := by decide

/-- 42_quarter_round.md R144: repeated, out-of-range and permuted indices. -/
theorem test_qrIndices_refused :
    qrIndicesWf 0 0 0 0 = false ∧ qrIndicesWf 0 4 8 16 = false ∧ qrIndicesWf 4 0 8 12 = false ∧
      qrIndicesWf 0 4 8 12 = true := by decide

theorem test_params_refused :
    ({ resetParams with dmemSize := 0 } : Params).wf = false ∧
      ({ resetParams with dmemSize := 2 ^ 32 + 1 } : Params).wf = false ∧
      ({ resetParams with regBase := 4 } : Params).wf = false ∧
      ({ resetParams with dmemHostBase := 0xFF } : Params).wf = false ∧ resetParams.wf = true ∧
      ({ resetParams with dmemSize := 2 ^ 32 } : Params).wf = true ∧
      ({ resetParams with dmemHostBase := 0x100 } : Params).wf = true := by decide

theorem test_host_line_refused :
    HostLine.wf resetParams (.mwr 0xFFF [1, 2]) = false ∧ HostLine.wf resetParams (.mrd 0x1000 1) = false ∧
      HostLine.wf resetParams (.mwr 0xFFF [1]) = true ∧ HostLine.wf resetParams (.mrd 0xFFF 1) = true := by decide

/-! ### Decoding: words written out from 30_encoding.md R91 and R93 -/

theorem test_decode_init : decode 0b00000000000000000000000000000001 = .ok .init := by decide

theorem test_decode_block : decode 0b00000000000000000000000000000010 = .ok .block := by decide

theorem test_decode_apply : decode 0b00000000000000000000000000000011 = .ok .apply := by decide

/-- 95_test_vectors.md 2.1. -/
theorem test_decode_reserved :
    decode 0b00000000000000000000000000000000 = .reject .reservedOpcode ∧
      decode 0b00000000000000000000000000000100 = .reject .reservedOpcode ∧
      decode 0b00000000000000000000000000001111 = .reject .reservedOpcode := by decide

/-- 30_encoding.md R97: the MBZ check comes before the opcode is looked at. -/
theorem test_decode_mbz :
    decode 0b00000000000000000000000000010001 = .reject .mbzNonZero ∧
      decode 0b10000000000000000000000000000011 = .reject .mbzNonZero ∧
      decode 0b00000000000000000000000000010000 = .reject .mbzNonZero := by decide

theorem test_decodeBytes :
    decodeBytes [0x03, 0x00, 0x00, 0x00, 0x55] = (.ok .apply, [0x55]) ∧
      decodeBytes [0x00, 0x00, 0x00, 0x03] = (.reject .mbzNonZero, []) ∧
      decodeBytes [0x03, 0x00, 0x00] = (.reject .truncated, [0x03, 0x00, 0x00]) := by decide

theorem test_decodeTableWord :
    decodeTableWord 32 1 = some .init ∧ decodeTableWord 32 2 = some .block ∧ decodeTableWord 8 3 = some .apply ∧
      decodeTableWord 32 0x11 = none := by decide

/-! ### Bits and byte order -/

theorem test_rotl32 : rotl32 0x80000001 7 = 0x000000C0 ∧ rotl32 0x12345678 16 = 0x56781234 := by decide

/-- 41_state_initializer.md R120: "expa" packs to 0x61707865. -/
theorem test_le32 : le32 0x65 0x78 0x70 0x61 = 0x61707865 := by decide

/-! ### The datapath: 95_test_vectors.md 2.2 to 2.5 -/

/-- A 16-word array with four words at the slots of a tuple. -/
def fourWords (t : QRTuple) (a b c d : Word) : Words :=
  ((((Vector.replicate 16 0).set (qrA t) a).set (qrB t) b).set (qrC t) c).set (qrD t) d

/-- The quarter round of four words through a tuple's slots. -/
def qrOf (t : QRTuple) (a b c d : Word) : Word × Word × Word × Word :=
  let w := quarterRound t (fourWords t a b c d)
  (w[qrA t], w[qrB t], w[qrC t], w[qrD t])

/-- 95_test_vectors.md 2.3, rows 1 and 3. -/
theorem test_quarterRound :
    qrOf .col0 0x11111111 0x01020304 0x9B8D6F43 0x01234567 = (0xEA2A92F4, 0xCB1CF8CE, 0x4581472E, 0x5881C4BB) ∧
      qrOf .diag1 0xFFFFFFFF 0xFFFFFFFF 0xFFFFFFFF 0xFFFFFFFF = (0xF0000FFD, 0x88790878, 0x0110FDEF, 0x010FFDF0) := by
  decide +kernel

/-- 95_test_vectors.md 2.3, one bit at a time. -/
theorem test_quarterRound_single_bits :
    qrOf .diag3 1 0 0 0 = (0x10000001, 0x80808808, 0x01010110, 0x01000110) ∧
      qrOf .col1 0 1 0 0 = (0x10001001, 0x88888808, 0x01110110, 0x01100110) ∧
      qrOf .diag0 0 0 1 0 = (0x00001000, 0x08080080, 0x00100001, 0x00100000) ∧
      qrOf .col3 0 0 0 1 = (0x10000000, 0x80800808, 0x01010010, 0x01000010) := by decide +kernel

/-- The state of a zero key and a zero nonce with a counter. -/
def zeroKeyState (ctr : Word) : Words :=
  #v[0x61707865, 0x3320646E, 0x79622D32, 0x6B206574, 0, 0, 0, 0, 0, 0, 0, 0, ctr, 0, 0, 0]

/-- 95_test_vectors.md 2.3: the state after the first column round, and after the first double round. -/
theorem test_rounds :
    columnRound (zeroKeyState 0) =
      #v[0xb7877feb, 0x16526ab4, 0xa0f85005, 0xb1d26bcb, 0x4a7d5c86, 0xfae0ea21, 0x66e11e68, 0xe3a851a6,
         0x5a83fd3f, 0xa0c7c792, 0xf75be0ef, 0x0b7556f4, 0xe21e9bcf, 0x3c599472, 0xca29678d, 0xa600ebd4] ∧
    doubleRound (zeroKeyState 0) =
      #v[0xe45fd249, 0x1bb820a6, 0xe31a88ea, 0xe667a9fe, 0x2a3bf673, 0x86bf4098, 0x460b500a, 0xfa169886,
         0x538dca0e, 0x0c439641, 0x00fa16bc, 0x8a08812a, 0x6bbf8b09, 0xc33013d6, 0xbb9f9849, 0x87c62165] := by
  decide +kernel

/-- 95_test_vectors.md 1.3: the known block, as words. -/
theorem test_block_known_vector :
    blockWords (zeroKeyState 0) =
      #v[0xade0b876, 0x903df1a0, 0xe56a5d40, 0x28bd8653, 0xb819d2bd, 0x1aed8da0, 0xccef36a8, 0xc70d778b,
         0x7c5941da, 0x8d485751, 0x3fe02477, 0x374ad8b8, 0xf4b8436a, 0x1ca11815, 0x69b687c3, 0x8665eeb2] := by
  decide +kernel

/-- The state of 41_state_initializer.md R128. -/
def exampleState : Words :=
  #v[0x61707865, 0x3320646E, 0x79622D32, 0x6B206574, 0x03020100, 0x07060504, 0x0B0A0908, 0x0F0E0D0C,
     0x13121110, 0x17161514, 0x1B1A1918, 0x1F1E1D1C, 0x00000001, 0x09000000, 0x4A000000, 0x00000000]

/-- 43_block_function.md R170: the first and last bytes of the example block. -/
theorem test_block_example_bytes :
    ((block exampleState).toList.take 8 = [0x10, 0xf1, 0xe7, 0xe4, 0xd1, 0x3b, 0x59, 0x15]) ∧
      ((block exampleState).toList.drop 56 = [0xcb, 0xd0, 0x83, 0xe8, 0xa2, 0x50, 0x3c, 0x4e]) := by
  decide +kernel

/-- 95_test_vectors.md 2.5: the carries of CtrInc, as words 12, 13 and 14. -/
theorem test_ctrInc :
    let go := fun (a b c : Word) =>
      let w := ctrInc ((((zeroKeyState 0).set 12 a).set 13 b).set 14 c)
      (w[12], w[13], w[14])
    go 0x7FFFFFFF 5 0 = (0x80000000, 5, 0) ∧ go 0xFFFFFFFE 5 0 = (0xFFFFFFFF, 5, 0) ∧
      go 0xFFFFFFFF 5 0 = (0, 6, 0) ∧ go 0xFFFFFFFF 0xFFFFFFFF 7 = (0, 0, 7) := by
  decide +kernel

/-! ### Single steps -/

/-- The state an outcome answers, or the reset state where it answers none. -/
def Outcome.state (r : Result) : State :=
  match r with
  | .next t => t
  | .fault _ => State.reset
  | .refused _ => State.reset

/-- An outcome is a next state. -/
def Outcome.isNext (r : Result) : Bool :=
  match r with
  | .next _ => true
  | .fault _ => false
  | .refused _ => false

theorem next_of_isNext {r : Result} (h : Outcome.isNext r = true) : r = .next (Outcome.state r) := by
  cases r with
  | next t => rfl
  | fault e => cases h
  | refused e => cases h

/-- Soundness as one check. -/
def soundB (s : State) : Bool :=
  s.dmem.wf && s.dmem.below s.params.dmemSize && s.params.wf && s.phaseOk && s.race.hostView.wf

theorem inv_of_soundB {s : State} (h : soundB s = true) : s.Inv := by
  simpa only [soundB, State.Inv, Bool.and_eq_true, and_assoc] using h

/-- A command accepted, with its operands latched. -/
def accepted (cmd src dst len : Word) : State :=
  { State.reset with
    phase := .decode, valid := true, st := exampleState, dmem := [(0, 0x4C), (69, 0x2E)],
    lat := { Latches.reset with
      cmd := cmd, keyLen := 32, nonceLen := 12, ctr := 1, src := src, dst := dst, len := len,
      key := Vector.ofFn fun i => BitVec.ofNat 8 i.val, nonce := #v[0, 0, 0, 9, 0, 0, 0, 0x4A, 0, 0, 0, 0] } }

/-- STATUS after the core step of an accepted command, with the words of st. -/
def statusAfter (s : State) : Word × Words := ((Outcome.state (step s)).statusWord, (Outcome.state (step s)).st)

/-- 95_test_vectors.md 2.1: STATUS by command word, with VALID = 1 and LEN = 0. -/
theorem test_status_by_word :
    [0x0, 0x1, 0x2, 0x3, 0x4, 0xF, 0x11, 0x12, 0x80000003, 0xFFFFFFFF].map (fun w => (statusAfter (accepted w 0 0 0)).1) =
      [0x506, 0x006, 0x006, 0x006, 0x506, 0x506, 0x506, 0x506, 0x506, 0x506] := by decide +kernel

/-- 41_state_initializer.md R128, 95_test_vectors.md 2.2. -/
theorem test_init_example : (statusAfter { accepted 1 0 0 0 with st := Vector.replicate 16 0, valid := false }) =
    (0x006, exampleState) := by decide +kernel

/-- 95_test_vectors.md 1.6: STATUS by key and nonce length. -/
theorem test_init_lengths :
    [((31 : Word), (12 : Word)), (33, 12), (32, 11), (32, 13), (31, 11), (32, 12)].map (fun l =>
      (statusAfter { accepted 1 0 0 0 with lat := { (accepted 1 0 0 0).lat with keyLen := l.1, nonceLen := l.2 } }).1) =
      [0x104, 0x104, 0x204, 0x204, 0x104, 0x006] := by decide +kernel

/-- 43_block_function.md R168, R170: KS0 and KS15 after BLOCK, and st as before. -/
theorem test_block_command :
    let t := Outcome.state (step (accepted 2 0 0 0))
    t.ksWord 0 = 0xE4E7F110 ∧ t.ksWord 15 = 0x4E3C50A2 ∧ t.st = exampleState := by decide +kernel

/-- 95_test_vectors.md 2.5: STATUS after APPLY's validation step, with DMEM_SIZE 0x1000 (0x003 is BUSY, in GEN). -/
theorem test_apply_validation :
    [((0xFF0 : Word), (0x000 : Word), (0x11 : Word)), (0xFF0, 0x800, 0x10), (0x000, 0xFF1, 0x10),
     (0xFFFFFFF0, 0x000, 0x20), (0xFFFFFFFF, 0x000, 0), (0x100, 0x101, 2), (0x101, 0x100, 2), (0x100, 0x102, 2),
     (0x100, 0x100, 70), (0xFF0, 0xFF8, 0x20)].map (fun r => (statusAfter (accepted 3 r.1 r.2.1 r.2.2)).1) =
      [0x306, 0x003, 0x306, 0x306, 0x006, 0x406, 0x406, 0x003, 0x003, 0x306] := by decide +kernel

/-- 44_stream_loop.md R190, example: four zero bytes encrypted after the all-zero INIT, in its 1 + 1 + 4 core steps. -/
theorem test_apply_example :
    let t := Outcome.state (Host.Core.run Sys2Proof.core 6
      { accepted 3 0 0x100 4 with st := zeroKeyState 0, dmem := [] })
    t.dmem = [(0x100, 0x76), (0x101, 0xb8), (0x102, 0xe0), (0x103, 0xad)] ∧ t.st[12] = 1 ∧ t.st[13] = 0 ∧
      t.statusWord = 0x006 := by decide +kernel

/-- 95_test_vectors.md 2.7: a command word placed by the host, run as the first step after reset. -/
theorem test_first_step_after_reset :
    [1, 2, 3, 5].map (fun w => (Outcome.state (step (State.reset.withFetchWord 32 w))).statusWord) =
      [0x104, 0x604, 0x604, 0x504] := by decide +kernel

/-- 95_test_vectors.md 2.6: STATUS and IRQ through a sequence of events from reset, up to the dropped BLOCK. -/
theorem test_status_sequence :
    let s1 := Outcome.state (runEvent (writeEvent .ctrl 1) State.reset)
    let s2 := Outcome.state (runEvent (writeEvent .cmd 2) s1)
    let s3 := Outcome.state (runEvent .core s2)
    let s4 := Outcome.state (runEvent (writeEvent .status 4) s3)
    let s5 := { accepted 3 0 0x100 64 with irqEn := true }
    let s6 := Outcome.state (runEvent (writeEvent .cmd 2) s5)
    let s7 := Outcome.state (runEvent (writeEvent .status 0xFFFFFFFF) { s6 with phase := .idle, done := true })
    (s1.statusWord, s1.irq) = (0x000, false) ∧ (s2.statusWord, s2.irq) = (0x001, false) ∧
      (s3.statusWord, s3.irq) = (0x604, true) ∧ (s4.statusWord, s4.irq) = (0x600, false) ∧
      s5.statusWord = 0x003 ∧ s6.statusWord = 0x00B ∧ s7.statusWord = 0x002 := by decide +kernel

/-- 10_state.md R31, R40, R44: CMD and reserved offsets read 0, STATE3 ignores a write, a narrow access is a fault. -/
theorem test_register_access :
    (Outcome.state (runEvent (.regRead 0x008 4) (accepted 3 0 0 0))).reads = [.reg 0x008 0] ∧
      (Outcome.state (runEvent (.regRead 0x024 4) (accepted 3 0 0 0))).reads = [.reg 0x024 0] ∧
      (Outcome.state (runEvent (.regWrite 0x08C 4 0x12345678) (accepted 3 0 0 0))).st = exampleState ∧
      Outcome.isNext (runEvent (.regRead 0x004 2) State.reset) = false ∧
      Outcome.isNext (runEvent (.regRead 0x006 4) State.reset) = false := by decide +kernel

/-- 30_encoding.md R99: LOADNONCE writes three packed words and the length. -/
theorem test_load_nonce :
    hostProgram [.loadNonce #v[0, 0, 0, 9, 0, 0, 0, 0x4A, 0, 0, 0, 0]] =
      [.regWrite 0x060 4 0x09000000, .regWrite 0x064 4 0x4A000000, .regWrite 0x068 4 0, .regWrite 0x010 4 12] := by
  decide +kernel

/-! ### Witnesses: states and operands that meet the hypotheses of the statements, clause by clause -/

/-- An APPLY of 70 bytes from 0 to 0x100, about to generate its first block. -/
def inGen : State :=
  { accepted 3 0 0x100 70 with phase := .gen, cur := { rem := 70, scur := 0, dcur := 0x100, n := 0, j := 0 } }

/-- The same APPLY at byte `j` of its first block, with the byte before it written. -/
def inXor (j : Nat) : State :=
  { inGen with phase := .xor, st := ctrInc exampleState, ks := block exampleState,
               cur := { rem := 70, scur := 0, dcur := 0x100, n := 64, j := j } }

/-- The same APPLY at byte `j` of its second and last block of six bytes. -/
def inTail (j : Nat) : State :=
  { inGen with phase := .xor, cur := { rem := 6, scur := 64, dcur := 0x140, n := 6, j := j } }

/-- An APPLY in place, of 70 bytes at 0x100, at byte `j` of its first block. -/
def inPlace (j : Nat) : State :=
  { accepted 3 0x100 0x100 70 with
    phase := .xor, st := ctrInc exampleState, ks := block exampleState,
    cur := { rem := 70, scur := 0x100, dcur := 0x100, n := 64, j := j } }

/-- The state with one source byte fetched before the core reads it. -/
def withFetched (s : State) (a : Nat) (b : Byte) : State := { s with race := { s.race with fetched := [(a, b)] } }

/-- An idle core with a valid cipher. -/
def idleValid : State := { State.reset with valid := true, st := exampleState }

theorem witness_IllegalWordCompletesIllegal :
    [(0x11 : Word), 0x80000000, 0, 4, 0xF].all (fun w =>
      decide ((accepted w 0 0 0).inputs = [] ∧ (accepted w 0 0 0).phase = .decode ∧
        ((accepted w 0 0 0).lat.cmd.extractLsb' 4 28 ≠ 0 ∨ (accepted w 0 0 0).lat.cmd.extractLsb' 0 4 = 0 ∨
          4 ≤ ((accepted w 0 0 0).lat.cmd.extractLsb' 0 4).toNat))) = true := by decide +kernel

theorem witness_StepRunsTheDecodedCommand :
    (∃ s : State, s.inputs = .core :: [.wait]) ∧ inGen.inputs = [] ∧
      ((accepted 1 0 0 0).phase = .decode ∧ decode (accepted 1 0 0 0).lat.cmd = .ok .init) ∧
      ((accepted 2 0 0 0).phase = .decode ∧ decode (accepted 2 0 0 0).lat.cmd = .ok .block) ∧
      ((accepted 3 0 0 0).phase = .decode ∧ decode (accepted 3 0 0 0).lat.cmd = .ok .apply) ∧
      inGen.phase = .gen ∧ (inXor 0).phase = .xor ∧ State.reset.phase = .idle :=
  ⟨⟨{ State.reset with inputs := [.core, .wait] }, rfl⟩, by decide, by decide, by decide, by decide, rfl, rfl, rfl⟩

theorem witness_InitBuildsTheCipherState :
    State.reset.lat.keyLen ≠ 32 ∧
      ({ (accepted 1 0 0 0).lat with nonceLen := 11 }.keyLen = 32 ∧
        { (accepted 1 0 0 0).lat with nonceLen := 11 }.nonceLen ≠ 12) ∧
      ((accepted 1 0 0 0).lat.keyLen = 32 ∧ (accepted 1 0 0 0).lat.nonceLen = 12) := by decide

theorem witness_QuarterRoundLeavesOtherWords :
    (15 : Fin 16) ≠ qrA .diag3 ∧ (15 : Fin 16) ≠ qrB .diag3 ∧ (15 : Fin 16) ≠ qrC .diag3 ∧ (15 : Fin 16) ≠ qrD .diag3 := by
  decide

theorem witness_RoundOrderDoesNotMatter :
    List.Perm [QRTuple.col3, .col2, .col1, .col0] [.col0, .col1, .col2, .col3] ∧
      List.Perm [QRTuple.diag2, .diag0, .diag3, .diag1] [.diag0, .diag1, .diag2, .diag3] := by decide

theorem witness_QuarterRoundOutsideTheTuplesIsRefused :
    qrIndicesWf 0 0 0 0 = false ∧ qrIndicesWf 0 4 8 13 = false ∧ qrIndicesWf 3 7 11 16 = false := by decide

theorem witness_BlockFillsTheKeystreamBuffer :
    State.reset.valid = false ∧ (accepted 2 0 0 0).valid = true := by decide

theorem witness_CounterIncrementCarriesIntoWord13 :
    (zeroKeyState 0xFFFFFFFF)[12] = 0xFFFFFFFF ∧ (zeroKeyState 0xFFFFFFFE)[12] ≠ 0xFFFFFFFF ∧
      (14 : Fin 16) ≠ 12 ∧ (14 : Fin 16) ≠ 13 := by decide

/-- Each clause of the validation at a boundary: no cipher, LEN = 0, one byte too many at the source and at the
destination, an overlap of one byte either way, and the accepted extremes (ranges that end at DMEM_SIZE, adjacent ranges,
in place). -/
theorem witness_ApplyValidatesInOrder :
    let fits := fun s : State => s.lat.src.toNat + s.lat.len.toNat ≤ s.params.dmemSize ∧
      s.lat.dst.toNat + s.lat.len.toNat ≤ s.params.dmemSize
    let overlaps := fun s : State => s.lat.src.toNat ≠ s.lat.dst.toNat ∧
      s.lat.src.toNat < s.lat.dst.toNat + s.lat.len.toNat ∧ s.lat.dst.toNat < s.lat.src.toNat + s.lat.len.toNat
    ({ accepted 3 0 0 0 with valid := false }.phase = .decode ∧ { accepted 3 0 0 0 with valid := false }.valid = false) ∧
      [accepted 3 0xFFFFFFFF 0 0].all (fun s =>
        decide (s.phase = .decode ∧ s.valid = true ∧ s.lat.len.toNat = 0)) = true ∧
      [accepted 3 0xFF0 0 0x11, accepted 3 0 0xFF0 0x11].all (fun s =>
        decide (s.phase = .decode ∧ s.valid = true ∧ 0 < s.lat.len.toNat ∧ ¬fits s)) = true ∧
      [accepted 3 0x100 0x101 2, accepted 3 0x101 0x100 2].all (fun s =>
        decide (s.phase = .decode ∧ s.valid = true ∧ 0 < s.lat.len.toNat ∧ fits s ∧ overlaps s)) = true ∧
      [accepted 3 0xFF8 0xFF0 8, accepted 3 0x100 0x102 2, accepted 3 0x100 0x100 70].all (fun s =>
        decide (s.phase = .decode ∧ s.valid = true ∧ 0 < s.lat.len.toNat ∧ fits s ∧ ¬overlaps s)) = true := by
  decide +kernel

theorem witness_GenMakesOneBlock : inGen.phase = .gen := rfl

theorem witness_XorWritesOneByte :
    ∃ _ : (inXor 63).cur.j < 64, (inXor 63).phase = .xor ∧ (inXor 63).dmem.wf = true ∧
      (inXor 63).cur.scur + (inXor 63).cur.j < (inXor 63).params.dmemSize ∧
      (inXor 63).cur.dcur + (inXor 63).cur.j < (inXor 63).params.dmemSize ∧ (inXor 63).raceFree :=
  ⟨by decide, rfl, by decide, by decide, by decide, rfl, rfl⟩

theorem witness_XorStopsWhereNoByteExists :
    ((inXor 64).phase = .xor ∧ 64 ≤ (inXor 64).cur.j) ∧
      (let s := { inXor 0 with cur := { (inXor 0).cur with scur := 0x1000 } }
       s.phase = .xor ∧ s.cur.j < 64 ∧ s.params.dmemSize ≤ s.cur.scur + s.cur.j) ∧
      (let s := { inXor 0 with cur := { (inXor 0).cur with dcur := 0x1000 } }
       s.phase = .xor ∧ s.cur.j < 64 ∧ s.cur.scur + s.cur.j < s.params.dmemSize ∧
         s.params.dmemSize ≤ s.cur.dcur + s.cur.j) := by decide

/-- Inside a block, at its last byte with bytes left, and at the last byte of the message. -/
theorem witness_XorMovesTheCursors :
    (∃ t, exec .apply (inXor 62) = .next t) ∧ (inXor 62).phase = .xor ∧ (inXor 62).cur.j + 1 ≠ (inXor 62).cur.n ∧
      (∃ t, exec .apply (inXor 63) = .next t) ∧ (inXor 63).cur.j + 1 = (inXor 63).cur.n ∧
      (inXor 63).cur.n < (inXor 63).cur.rem ∧
      (∃ t, exec .apply (inTail 5) = .next t) ∧ (inTail 5).phase = .xor ∧ (inTail 5).cur.j + 1 = (inTail 5).cur.n ∧
      (inTail 5).cur.rem = (inTail 5).cur.n :=
  ⟨⟨_, next_of_isNext (by decide +kernel)⟩, rfl, by decide, ⟨_, next_of_isNext (by decide +kernel)⟩, rfl, by decide,
    ⟨_, next_of_isNext (by decide +kernel)⟩, rfl, rfl, rfl⟩

/-- Out of place, in place, and a single byte at the very end of DMEM. -/
theorem witness_ApplyKeystreamLaw :
    (accepted 3 0 0x100 70).applyReady ∧ (accepted 3 0x100 0x100 70).applyReady ∧ (accepted 3 0xFFF 0 1).applyReady := by
  unfold State.applyReady State.raceFree
  decide

theorem witness_ApplyStaysBusyUntilItsLastStep :
    (accepted 3 0 0x100 70).applyReady ∧ 72 < applySteps (accepted 3 0 0x100 70).msgLen :=
  ⟨witness_ApplyKeystreamLaw.1, by decide⟩

/-- One byte encrypted to 0x100 and then decrypted from there to 0x200. -/
theorem witness_ApplyTwiceGivesBackTheInput :
    ∃ s₁ t₁ s₂ t₂ : State, s₁.applyReady ∧ s₂.applyReady ∧ s₂.st = s₁.st ∧ s₂.msgLen = s₁.msgLen ∧
      Host.Core.run Sys2Proof.core (applySteps s₁.msgLen) s₁ = .next t₁ ∧
      (∀ i : Nat, i < s₁.msgLen → s₂.dmem.read (s₂.srcBase + i) = t₁.dmem.read (s₁.dstBase + i)) ∧
      Host.Core.run Sys2Proof.core (applySteps s₂.msgLen) s₂ = .next t₂ := by
  let s₁ := accepted 3 0 0x100 1
  let t₁ := Outcome.state (Host.Core.run Sys2Proof.core (applySteps s₁.msgLen) s₁)
  let s₂ : State := { accepted 3 0x100 0x200 1 with dmem := t₁.dmem }
  refine ⟨s₁, t₁, s₂, Outcome.state (Host.Core.run Sys2Proof.core (applySteps s₂.msgLen) s₂), ?_, ?_, rfl, rfl,
    next_of_isNext (by decide +kernel), fun i _ => rfl, next_of_isNext (by decide +kernel)⟩
  · unfold State.applyReady State.raceFree
    decide
  · unfold State.applyReady State.raceFree
    decide +kernel

/-- 65 bytes in one command, and as 64 bytes and one more. -/
theorem witness_SuccessiveAppliesContinueOneKeystream :
    ∃ s t s₁ t₁ s₂ t₂ : State, s.applyReady ∧ s₁.applyReady ∧ s₂.applyReady ∧
      s₁.st = s.st ∧ s₁.dmem = s.dmem ∧ s₁.srcBase = s.srcBase ∧ s₁.dstBase = s.dstBase ∧ s₁.msgLen % 64 = 0 ∧
      s₂.st = t₁.st ∧ s₂.dmem = t₁.dmem ∧ s₂.srcBase = s.srcBase + s₁.msgLen ∧ s₂.dstBase = s.dstBase + s₁.msgLen ∧
      s.msgLen = s₁.msgLen + s₂.msgLen ∧
      Host.Core.run Sys2Proof.core (applySteps s.msgLen) s = .next t ∧
      Host.Core.run Sys2Proof.core (applySteps s₁.msgLen) s₁ = .next t₁ ∧
      Host.Core.run Sys2Proof.core (applySteps s₂.msgLen) s₂ = .next t₂ := by
  let s := accepted 3 0 0x100 65
  let s₁ := accepted 3 0 0x100 64
  let t₁ := Outcome.state (Host.Core.run Sys2Proof.core (applySteps s₁.msgLen) s₁)
  let s₂ : State := { accepted 3 64 0x140 1 with dmem := t₁.dmem, st := t₁.st }
  refine ⟨s, Outcome.state (Host.Core.run Sys2Proof.core (applySteps s.msgLen) s), s₁, t₁, s₂,
    Outcome.state (Host.Core.run Sys2Proof.core (applySteps s₂.msgLen) s₂), ?_, ?_, ?_, rfl, rfl, rfl, rfl,
    (by decide : (accepted 3 0 0x100 64).msgLen % 64 = 0), rfl, rfl, rfl, rfl, rfl, next_of_isNext (by decide +kernel), next_of_isNext (by decide +kernel),
    next_of_isNext (by decide +kernel)⟩
  · unfold State.applyReady State.raceFree
    decide
  · unfold State.applyReady State.raceFree
    decide
  · unfold State.applyReady State.raceFree
    decide +kernel

/-- The first and last offsets of the window, and the ends of the reserved ranges and their neighbours. -/
theorem witness_RegisterMapIsOneToOne :
    [0x000, 0x0FC, 0x024, 0x03C, 0x06C, 0x07C].all (fun off => decide (off < 256 ∧ off % 4 = 0)) = true ∧
      [0x020, 0x040, 0x068, 0x080].all (fun off => (Reg.ofOffset off).isSome) = true := by decide

theorem witness_MisalignedRegisterAccessFaults :
    (0 < 256 ∧ (1 ≠ 4 ∨ 0 % 4 ≠ 0)) ∧ (255 < 256 ∧ (4 ≠ 4 ∨ 255 % 4 ≠ 0)) ∧ (0x0FC < 256 ∧ 0x0FC % 4 = 0) := by decide

theorem witness_CmdWriteIsAcceptedOrOverruns : inGen.phase ≠ .idle ∧ State.reset.phase = .idle := by decide

theorem witness_OperandRegistersHoldTheirValue :
    [Reg.keyLen, .nonceLen, .ctrInit, .src, .dst, .len, .key 0, .key 7, .nonce 0, .nonce 2].all (fun r =>
      decide (r ≠ .ctrl ∧ r ≠ .status ∧ r ≠ .cmd ∧ (∀ k, r ≠ .state k) ∧ (∀ k, r ≠ .ks k))) = true ∧
      Reg.key 0 ≠ Reg.key 7 := by decide

theorem witness_ReservedAndReadOnlyRegisters :
    [0x024, 0x03C, 0x06C, 0x07C].all (fun off =>
      decide (off % 4 = 0 ∧ ((0x024 ≤ off ∧ off ≤ 0x03C) ∨ (0x06C ≤ off ∧ off ≤ 0x07C)))) = true ∧
      [0x080, 0x0BC, 0x0C0, 0x0FC].all (fun off => decide (off % 4 = 0 ∧ 0x080 ≤ off ∧ off ≤ 0x0FC)) = true := by decide

theorem witness_ReadViewsWhenIdle : idleValid.phase = .idle := rfl

theorem witness_KsReadsOutputWord : idleValid.valid = true ∧ ∃ t, exec .block idleValid = .next t :=
  ⟨rfl, _, next_of_isNext (by decide +kernel)⟩

theorem witness_ReadViewsWhenBusyAreFree : inGen.phase ≠ .idle := by decide

theorem witness_RegisterReadsHaveNoSideEffect :
    (∃ t, runEvent (.regRead 0x004 4) inGen = .next t) ∧ (∃ t, runEvent (.regRead 0x0FC 4) inGen = .next t) ∧
      ∃ t, runEvent (.regRead 0x024 4) State.reset = .next t :=
  ⟨⟨_, rfl⟩, ⟨_, rfl⟩, ⟨_, rfl⟩⟩

theorem witness_WaitReadsStatusUntilIdle : State.reset.phase = .idle ∧ (inXor 0).phase ≠ .idle := by decide

/-- An idle core with the last byte of DMEM; a running APPLY with the bytes next to its two ranges, and with the first and
last bytes of its source, which a read may touch. -/
theorem witness_HostMemoryAccessWithoutRace :
    (0xFFF < State.reset.params.dmemSize ∧ State.reset.dmem.wf = true ∧ State.reset.race.hostView.wf = true ∧
      State.reset.applyRunning = false ∧ State.reset.phase = .idle) ∧
      [70, 0xFF, 0x146].all (fun a => decide (a < inGen.params.dmemSize ∧ inGen.dmem.wf = true ∧
        inGen.race.hostView.wf = true ∧ inGen.inSource a = false ∧ inGen.inDest a = false)) = true ∧
      [0, 69].all (fun a => decide (a < inGen.params.dmemSize ∧ inGen.inSource a = true ∧ inGen.inDest a = false)) = true ∧
      inGen.applyRunning = true ∧ inGen.phase ≠ .idle := by decide

theorem witness_HostMemoryAccessOutsideFaults : State.reset.params.dmemSize ≤ 0x1000 := by decide

/-- The first and last destination bytes, in each phase of a running APPLY. -/
theorem witness_RacingReadReturnsOldOrNew :
    [accepted 3 0 0x100 70, inGen, inXor 1, inTail 5].all (fun s =>
      [0x100, 0x145].all fun a =>
        decide (a < s.params.dmemSize) && s.applyRunning && s.inDest a) = true := by decide

theorem witness_PromisedByteIsTheByteWritten :
    (accepted 3 0 0x100 70).Inv ∧ (accepted 3 0 0x100 70).applyRunning = true ∧
      (∃ t, runEvent .core (accepted 3 0 0x100 70) = .next t) ∧
      inGen.Inv ∧ inGen.applyRunning = true ∧ (∃ t, runEvent .core inGen = .next t) ∧
      (inXor 63).Inv ∧ (inXor 63).applyRunning = true ∧ (∃ t, runEvent .core (inXor 63) = .next t ∧
        t.applyRunning = true ∧ t.applied ≤ 64) ∧ 64 < (inXor 63).msgLen ∧
      (inXor 63).dstBase + (inXor 63).applied ∉ (inXor 63).race.landed :=
  ⟨inv_of_soundB (by decide), by decide, ⟨_, next_of_isNext (by decide +kernel)⟩,
    inv_of_soundB (by decide), by decide, ⟨_, next_of_isNext (by decide +kernel)⟩,
    inv_of_soundB (by decide +kernel), by decide,
    ⟨_, next_of_isNext (by decide +kernel), by decide +kernel, by decide +kernel⟩, by decide, by decide⟩

/-- Out of place and in place, in each phase of a running APPLY: the last source byte before any is read, the source byte
read next, the one just read, and one that a racing read has fetched. -/
theorem witness_RacingSourceWriteSeenOrNot :
    [accepted 3 0 0x100 70, inXor 5, inTail 0, inPlace 5, withFetched (inXor 5) 5 9].all soundB = true ∧
      [(accepted 3 0 0x100 70, 69), (inXor 5, 5), (inTail 0, 64), (inPlace 5, 0x105)].all (fun p =>
        p.1.applyRunning && p.1.inSource p.2 && decide (p.1.applied ≤ p.2 - p.1.srcBase) &&
          decide (p.1.race.fetched.lookup p.2 = none)) = true ∧
      ((inXor 5).inSource 4 = true ∧ (inXor 5).inDest 4 = false ∧ 4 - (inXor 5).srcBase < (inXor 5).applied) ∧
      ((inPlace 5).inSource 0x104 = true ∧ 0x104 - (inPlace 5).srcBase < (inPlace 5).applied) ∧
      ((withFetched (inXor 5) 5 9).applyRunning = true ∧ (withFetched (inXor 5) 5 9).inSource 5 = true ∧
        (withFetched (inXor 5) 5 9).race.fetched.lookup 5 = some 9) := by decide +kernel

/-- Out of place and in place: a destination byte the core has just written, and the one it writes next. -/
theorem witness_RacingDestinationWriteKeepsOneOfTwo :
    [inXor 5, inPlace 5].all (fun s => soundB s && s.applyRunning && s.inDest 0x104 && s.inDest 0x105 &&
      decide (0x104 - s.dstBase < s.applied ∧ s.applied ≤ 0x105 - s.dstBase)) = true := by decide +kernel

theorem witness_RefusedDmemAccessFaults : (inXor 0).phase = .xor ∧ inGen.phase ≠ .xor := by decide

/-- The first and last bytes of both windows, and addresses right beside them. -/
theorem witness_HostBusReachesBothWindows :
    State.reset.params.wf = true ∧ 0 < 256 ∧ 255 < 256 ∧ 0 < State.reset.params.dmemSize ∧
      0xFFF < State.reset.params.dmemSize ∧
      [((0x100 : Nat), (4 : Nat)), (0xFFFC, 4), (0x11000, 1), (0, 0)].all (fun p =>
        decide ((p.1 + p.2 ≤ resetParams.regBase ∨ resetParams.regBase + 256 ≤ p.1) ∧
          (p.1 + p.2 ≤ resetParams.dmemHostBase ∨ resetParams.dmemHostBase + resetParams.dmemSize ≤ p.1))) = true := by
  decide

/-- An idle core, and an APPLY abandoned in its loop; bytes right outside its destination range, and its last byte. -/
theorem witness_ResetLeavesDmemOutsideAnAbandonedRange :
    State.reset.dmem.wf = true ∧ State.reset.applyRunning = false ∧ (inXor 5).dmem.wf = true ∧
      (inXor 5).applyRunning = true ∧ (inXor 5).inDest 0xFF = false ∧ (inXor 5).inDest 0x146 = false ∧
      69 < (inXor 5).msgLen := by decide

theorem witness_CommandsRightAfterReset :
    ((2 : Word) = 2 ∧ (0x604 : Word) = 0x604) ∧ ((3 : Word) = 3 ∧ (0x604 : Word) = 0x604) ∧
      ((1 : Word) = 1 ∧ (0x104 : Word) = 0x104) := by decide

/-- A sound state in each phase, and a step from it. -/
theorem witness_StepKeepsSoundness :
    [State.reset, accepted 1 0 0 0, accepted 3 0 0x100 70, inGen, inXor 0, inXor 63, inTail 5].all (fun s =>
      soundB s && Outcome.isNext (step s)) = true := by
  decide +kernel

theorem witness_SoundCoreStepAnswers : inGen.Inv ∧ (inTail 5).Inv :=
  ⟨inv_of_soundB (by decide), inv_of_soundB (by decide)⟩

/-- Events that keep the host's duties in a running APPLY, one of each form. -/
theorem witness_DutifulHostIsNeverRefused :
    inGen.Inv ∧ inGen.raceFree ∧
      [Event.core, .regRead 0x0FC 4, .regWrite 0x00C 4 33, .regWrite 0x004 4 4, .dmemRead 70, .dmemRead 0xFFF,
       .dmemWrite 0x146 1, .wait, .reset].all (fun e => e.respects inGen) = true ∧
      (Event.regWrite 0x008 4 3).respects State.reset = true :=
  ⟨witness_SoundCoreStepAnswers.1, ⟨rfl, rfl⟩, by decide, by decide⟩

theorem witness_DutifulHostDoesNotDisturbACommand :
    inGen.phase ≠ .idle ∧ inGen.dmem.wf = true ∧ inGen.race.hostView.wf = true ∧
      [Event.regRead 0x0FC 4, .regWrite 0x00C 4 33, .dmemRead 70, .dmemWrite 0x146 1, .wait].all (fun e =>
        e.respects inGen && decide (e ≠ .core) && decide (e ≠ .reset) && Outcome.isNext (runEvent e inGen)) = true ∧
      inGen.applyRunning = true ∧ inGen.inSource 69 = true ∧ inGen.inDest 0x145 = true := by decide +kernel

/-- A successful INIT, the counter of a GEN step, and a reset: each changes a state word. -/
theorem witness_OnlyInitGenAndResetWriteTheState :
    [{ accepted 1 0 0 0 with st := Vector.replicate 16 0 }, inGen, { inGen with inputs := [.reset] }].all (fun s =>
      Outcome.isNext (step s) && decide ((Outcome.state (step s)).st[12] ≠ s.st[12])) = true := by decide +kernel

/-- A successful INIT, a failed one, and a reset: each changes VALID. -/
theorem witness_OnlyInitAndResetChangeValid :
    [{ accepted 1 0 0 0 with valid := false },
     { accepted 1 0 0 0 with lat := { (accepted 1 0 0 0).lat with keyLen := 33 } },
     { inGen with inputs := [.reset] }].all (fun s =>
      Outcome.isNext (step s) && decide ((Outcome.state (step s)).valid ≠ s.valid)) = true := by decide +kernel

theorem witness_PhasesFollowTheTable :
    [State.reset, accepted 2 0 0 0, accepted 3 0 0x100 70, inGen, inXor 62, inXor 63, inTail 5].all (fun s =>
      Outcome.isNext (runEvent .core s)) = true ∧
      [Event.wait, .regWrite 0x008 4 1, .dmemWrite 0 1].all (fun e =>
        decide (e ≠ .core ∧ e ≠ .coreDmemRefused ∧ e ≠ .reset) && Outcome.isNext (runEvent e State.reset)) = true ∧
      [Event.regWrite 0x008 4 1, .busWrite (resetParams.regBase + 0x008) [1, 0, 0, 0]].all (fun e =>
        Outcome.isNext (runEvent e State.reset) &&
          decide ((Outcome.state (runEvent e State.reset)).phase = .decode)) = true := by
  decide +kernel

/-- Each kind of error ends a command. -/
theorem witness_ErrorsChangeOnlyStatus :
    [accepted 0 0 0 0, { accepted 1 0 0 0 with lat := { (accepted 1 0 0 0).lat with keyLen := 31 } },
     { accepted 1 0 0 0 with lat := { (accepted 1 0 0 0).lat with nonceLen := 13 } },
     { accepted 2 0 0 0 with valid := false }, accepted 3 0xFF0 0 0x11, accepted 3 0x100 0x101 2].all (fun s =>
      let t := Outcome.state (runEvent .core s)
      Outcome.isNext (runEvent .core s) && decide (s.phase ≠ .idle ∧ t.phase = .idle ∧ t.err ≠ .ok)) = true := by
  decide +kernel

theorem witness_RunningCommandIgnoresOperandRegisters :
    (∃ t, runEvent .core (accepted 1 0 0 0) = .next t) ∧ ∃ t, runEvent .core (inXor 0) = .next t :=
  ⟨⟨_, next_of_isNext (by decide +kernel)⟩, ⟨_, next_of_isNext (by decide +kernel)⟩⟩

theorem witness_CoreStepsLeaveHostRegisters :
    (∃ t, runEvent .core inGen = .next t) ∧ ∃ t, runEvent .core (inTail 5) = .next t :=
  ⟨⟨_, next_of_isNext (by decide +kernel)⟩, ⟨_, next_of_isNext (by decide +kernel)⟩⟩

theorem witness_EveryCommandCompletes :
    inGen.Inv ∧ inGen.inputs = [] ∧ inGen.phase ≠ .idle ∧
      (accepted 3 0 0x100 70).Inv ∧ (accepted 3 0 0x100 70).inputs = [] ∧ (accepted 3 0 0x100 70).phase ≠ .idle :=
  ⟨witness_SoundCoreStepAnswers.1, rfl, by decide, inv_of_soundB (by decide), rfl, by decide⟩

end Sys2Proof.Machine
end

section
/-! The write of an XOR step touches DMEM only. -/

namespace Sys2Proof.Machine

@[simp] theorem xorStore_st (s : State) (hj : s.cur.j < 64) : (s.xorStore hj).st = s.st :=
  State.coreStore_st ..

@[simp] theorem xorStore_valid (s : State) (hj : s.cur.j < 64) : (s.xorStore hj).valid = s.valid :=
  State.coreStore_valid ..

@[simp] theorem xorStore_phase (s : State) (hj : s.cur.j < 64) : (s.xorStore hj).phase = s.phase :=
  State.coreStore_phase ..

@[simp] theorem xorStore_lat (s : State) (hj : s.cur.j < 64) : (s.xorStore hj).lat = s.lat :=
  State.coreStore_lat ..

@[simp] theorem xorStore_cur (s : State) (hj : s.cur.j < 64) : (s.xorStore hj).cur = s.cur :=
  State.coreStore_cur ..

@[simp] theorem xorStore_irqEn (s : State) (hj : s.cur.j < 64) : (s.xorStore hj).irqEn = s.irqEn :=
  State.coreStore_irqEn ..

@[simp] theorem xorStore_done (s : State) (hj : s.cur.j < 64) : (s.xorStore hj).done = s.done :=
  State.coreStore_done ..

@[simp] theorem xorStore_overrun (s : State) (hj : s.cur.j < 64) : (s.xorStore hj).overrun = s.overrun :=
  State.coreStore_overrun ..

@[simp] theorem xorStore_err (s : State) (hj : s.cur.j < 64) : (s.xorStore hj).err = s.err :=
  State.coreStore_err ..

@[simp] theorem xorStore_regs (s : State) (hj : s.cur.j < 64) : (s.xorStore hj).regs = s.regs :=
  State.coreStore_regs ..

@[simp] theorem xorStore_params (s : State) (hj : s.cur.j < 64) : (s.xorStore hj).params = s.params :=
  State.coreStore_params ..

@[simp] theorem xorStore_race (s : State) (hj : s.cur.j < 64) : (s.xorStore hj).race = s.race :=
  State.coreStore_race ..

@[simp] theorem xorStore_inputs (s : State) (hj : s.cur.j < 64) : (s.xorStore hj).inputs = s.inputs :=
  State.coreStore_inputs ..

@[simp] theorem xorStore_reads (s : State) (hj : s.cur.j < 64) : (s.xorStore hj).reads = s.reads :=
  State.coreStore_reads ..

@[simp] theorem xorStore_draws (s : State) (hj : s.cur.j < 64) : (s.xorStore hj).draws = s.draws :=
  State.coreStore_draws ..

theorem xorStore_wf {s : State} (h : s.dmem.wf = true) (hj : s.cur.j < 64) : (s.xorStore hj).dmem.wf = true := by
  rw [State.xorStore, State.coreStore_dmem]
  split
  · exact h
  · exact Memory.wf_write h _ _

theorem xorStore_below {s : State} (h : s.dmem.below s.params.dmemSize = true) (hj : s.cur.j < 64)
    (hd : s.cur.dcur + s.cur.j < s.params.dmemSize) : (s.xorStore hj).dmem.below s.params.dmemSize = true := by
  rw [State.xorStore, State.coreStore_dmem]
  split
  · exact h
  · exact Memory.below_write h hd _

end Sys2Proof.Machine
end

section
/-! What a core step leaves alone, which step it takes from a given state, and that a sound core always takes one. -/

namespace Sys2Proof.Machine

/-- What one core step keeps, whichever step it is (10_state.md R38, R42, R43). -/
structure CoreFrame (s t : State) : Prop where
  regs : t.regs = s.regs
  irqEn : t.irqEn = s.irqEn
  overrun : t.overrun = s.overrun
  lat : t.lat = s.lat
  params : t.params = s.params
  inputs : t.inputs = s.inputs
  reads : t.reads = s.reads
  draws : t.draws = s.draws

theorem CoreMove.coreFrame {s t : State} (h : CoreMove s t) : CoreFrame s t := by
  cases h with
  | xorByte | xorBlock | xorEnd => constructor <;> simp
  | _ => constructor <;> rfl

/-- Each core move is the core's step: the converse of `coreStep_move`. -/
theorem CoreMove.coreStep_eq {s t : State} (h : CoreMove s t) : coreStep s = .next t := by
  cases h with
  | idle hp => simp only [coreStep, hp]
  | illegal hp e hd => simp only [coreStep, hp, State.decodeStep, hd]
  | initKey hp hd hk => simp only [coreStep, hp, State.decodeStep, hd, exec, execInit_eq, if_pos hk]
  | initNonce hp hd hk hn =>
    simp only [coreStep, hp, State.decodeStep, hd, exec, execInit_eq, if_neg (not_not.2 hk), if_pos hn]
  | initOk hp hd hk hn =>
    simp only [coreStep, hp, State.decodeStep, hd, exec, execInit_eq, if_neg (not_not.2 hk), if_neg (not_not.2 hn)]
  | blockNone hp hd hv => simp only [coreStep, hp, State.decodeStep, hd, exec, execBlock, if_pos hv]
  | blockOk hp hd hv => simp only [coreStep, hp, State.decodeStep, hd, exec, execBlock, hv, Bool.true_eq_false, if_false]
  | applyEnd hp hd c hv => simp only [coreStep, hp, State.decodeStep, hd, exec, execApply, State.applyValidate, hv]
  | applyStart hp hd hv => simp only [coreStep, hp, State.decodeStep, hd, exec, execApply, State.applyValidate, hv]
  | gen hp => simp only [coreStep, hp, exec, execApply]
  | xorByte hp hj hs hd hn => simp only [coreStep, hp, exec, execApply, xorStep_eq s hj hs hd, if_neg hn]
  | xorBlock hp hj hs hd hn hr =>
    simp only [coreStep, hp, exec, execApply, xorStep_eq s hj hs hd, if_pos hn, if_neg hr]
  | xorEnd hp hj hs hd hn hr =>
    simp only [coreStep, hp, exec, execApply, xorStep_eq s hj hs hd, if_pos hn, if_pos hr]

theorem coreStep_next_iff {s t : State} : coreStep s = .next t ↔ CoreMove s t :=
  ⟨coreStep_move, CoreMove.coreStep_eq⟩

/-- A command word decodes only to the command whose word it is (30_encoding.md R93). -/
theorem eq_encode_of_decode {w : Word} {i : Instr} (h : decode w = .ok i) : w = encode i := by
  have hw := word_eq_fields w
  unfold decode at h
  split at h
  · cases h
  · rename_i hm
    rw [not_not.1 hm] at hw
    rw [hw]
    unfold opcodeInstr at h
    split at h
    · rename_i ho; cases h; rw [ho]; rfl
    · split at h
      · rename_i ho; cases h; rw [ho]; rfl
      · split at h
        · rename_i ho; cases h; rw [ho]; rfl
        · cases h

/-- With other operand registers and another IRQ_EN the core makes the same move (10_state.md R27, R48). -/
theorem CoreMove.with_regs {s t : State} (h : CoreMove s t) (r : OperandRegs) (b : Bool) :
    CoreMove { s with regs := r, irqEn := b } { t with regs := r, irqEn := b } := by
  have store (hj : s.cur.j < 64) :
      State.xorStore { s with regs := r, irqEn := b } hj = { s.xorStore hj with regs := r, irqEn := b } := by
    simp only [State.xorStore, State.coreStore, State.sourceByte]
    split <;> rfl
  cases h with
  | idle hp => exact .idle hp
  | illegal hp e hd => exact .illegal hp e hd
  | initKey hp hd hk => exact .initKey hp hd hk
  | initNonce hp hd hk hn => exact .initNonce hp hd hk hn
  | initOk hp hd hk hn => exact .initOk hp hd hk hn
  | blockNone hp hd hv => exact .blockNone hp hd hv
  | blockOk hp hd hv => exact .blockOk hp hd hv
  | applyEnd hp hd c hv => exact .applyEnd (s := { s with regs := r, irqEn := b }) hp hd c hv
  | applyStart hp hd hv => exact .applyStart hp hd hv
  | gen hp => exact .gen hp
  | xorByte hp hj hs hd hn =>
    have h' := CoreMove.xorByte (s := { s with regs := r, irqEn := b }) hp hj hs hd hn
    rwa [store hj] at h'
  | xorBlock hp hj hs hd hn hr =>
    have h' := CoreMove.xorBlock (s := { s with regs := r, irqEn := b }) hp hj hs hd hn hr
    rwa [store hj] at h'
  | xorEnd hp hj hs hd hn hr =>
    have h' := CoreMove.xorEnd (s := { s with regs := r, irqEn := b }) hp hj hs hd hn hr
    rwa [store hj] at h'

end Sys2Proof.Machine
end

section
/-! Soundness as named facts, and that every move of the machine keeps it. -/

namespace Sys2Proof.Machine

/-- What `State.loopOk` says, on naturals: a valid cipher, APPLY latched, both ranges checked, and both cursors a whole
number of blocks into the message. -/
structure LoopFacts (s : State) : Prop where
  valid : s.valid = true
  cmd : decode s.lat.cmd = .ok .apply
  src_le : s.srcBase + s.msgLen ≤ s.params.dmemSize
  dst_le : s.dstBase + s.msgLen ≤ s.params.dmemSize
  apart : ¬(s.srcBase ≠ s.dstBase ∧ s.srcBase < s.dstBase + s.msgLen ∧ s.dstBase < s.srcBase + s.msgLen)
  rem_pos : 0 < s.cur.rem
  rem_le : s.cur.rem ≤ s.msgLen
  blocks : (s.msgLen - s.cur.rem) % 64 = 0
  scur : s.cur.scur + s.cur.rem = s.srcBase + s.msgLen
  dcur : s.cur.dcur + s.cur.rem = s.dstBase + s.msgLen

theorem loopOk_iff (s : State) : s.loopOk = true ↔ LoopFacts s := by
  simp only [State.loopOk, State.buffersOk, State.cursorsOk, Bool.and_eq_true, Bool.not_eq_true', ← Bool.not_eq_true,
    inRange_iff, partialOverlap_iff, decide_eq_true_eq]
  constructor
  · rintro ⟨⟨⟨hv, hc⟩, ⟨hs, hd⟩, ha⟩, ⟨⟨⟨h1, h2⟩, h3⟩, h4⟩, h5⟩
    exact ⟨hv, hc, hs, hd, ha, h1, h2, h3, h4, h5⟩
  · rintro ⟨hv, hc, hs, hd, ha, h1, h2, h3, h4, h5⟩
    exact ⟨⟨⟨hv, hc⟩, ⟨hs, hd⟩, ha⟩, ⟨⟨⟨h1, h2⟩, h3⟩, h4⟩, h5⟩

theorem phaseOk_idle {s : State} (hp : s.phase = .idle) : s.phaseOk = true ↔ s.race = Race.none := by
  simp [State.phaseOk, hp]

theorem phaseOk_decode {s : State} (hp : s.phase = .decode) : s.phaseOk = true ↔ s.done = false ∧ s.err = .ok := by
  simp [State.phaseOk, hp]

theorem phaseOk_gen {s : State} (hp : s.phase = .gen) :
    s.phaseOk = true ↔ s.done = false ∧ s.err = .ok ∧ LoopFacts s := by
  simp [State.phaseOk, hp, loopOk_iff, and_assoc]

theorem phaseOk_xor {s : State} (hp : s.phase = .xor) :
    s.phaseOk = true ↔
      s.done = false ∧ s.err = .ok ∧ LoopFacts s ∧ s.cur.n = min s.cur.rem 64 ∧ s.cur.j < s.cur.n := by
  simp [State.phaseOk, hp, loopOk_iff, and_assoc]

/-- A busy sound core has DONE = 0 and ERR = 0 (10_state.md R37, R39). -/
theorem phaseOk_busy {s : State} (h : s.phaseOk = true) (hp : s.phase ≠ .idle) : s.done = false ∧ s.err = .ok := by
  cases hp' : s.phase with
  | idle => exact absurd hp' hp
  | decode => exact (phaseOk_decode hp').1 h
  | gen => obtain ⟨hd, he, -⟩ := (phaseOk_gen hp').1 h; exact ⟨hd, he⟩
  | xor => obtain ⟨hd, he, -⟩ := (phaseOk_xor hp').1 h; exact ⟨hd, he⟩

/-- An XOR step of a sound state touches DMEM inside both checked ranges (44_stream_loop.md R190). -/
theorem LoopFacts.xor_bounds {s : State} (h : LoopFacts s) (hn : s.cur.n = min s.cur.rem 64) (hj : s.cur.j < s.cur.n) :
    s.cur.j < 64 ∧ s.cur.scur + s.cur.j < s.params.dmemSize ∧ s.cur.dcur + s.cur.j < s.params.dmemSize := by
  obtain ⟨-, -, hs, hd, -, -, -, -, hsc, hdc⟩ := h
  omega

/-- What the cursors promise depends only on these fields. -/
theorem LoopFacts.of_fields {s t : State} (h : LoopFacts s) (hv : t.valid = s.valid) (hl : t.lat = s.lat)
    (hp : t.params = s.params) (hr : t.cur.rem = s.cur.rem) (hs : t.cur.scur = s.cur.scur)
    (hd : t.cur.dcur = s.cur.dcur) : LoopFacts t := by
  obtain ⟨h1, h2, h3, h4, h5, h6, h7, h8, h9, h10⟩ := h
  constructor <;> simpa only [State.srcBase, State.dstBase, State.msgLen, hv, hl, hp, hr, hs, hd]

/-- A validation that passes puts the cursors at the start of both ranges (44_stream_loop.md R191). -/
theorem LoopFacts.of_applyVerdict {s : State} (hc : decode s.lat.cmd = .ok .apply) (hv : s.applyVerdict = none) :
    LoopFacts { s with cur := { s.cur with rem := s.msgLen, scur := s.srcBase, dcur := s.dstBase }, phase := .gen } := by
  obtain ⟨hvalid, hpos, hs, hd, ha⟩ := (applyVerdict_none_iff s).1 hv
  exact ⟨hvalid, hc, hs, hd, ha, hpos, le_refl _, by simp [State.msgLen], rfl, rfl⟩

/-- A full block done leaves the cursors a whole number of blocks on (44_stream_loop.md R195). -/
theorem LoopFacts.nextBlock {s t : State} (h : LoopFacts s) (hn : s.cur.n = min s.cur.rem 64)
    (hr : s.cur.rem - s.cur.n ≠ 0) (hv : t.valid = s.valid) (hl : t.lat = s.lat) (hp : t.params = s.params)
    (hc : t.cur = s.cur.nextBlock) : LoopFacts t := by
  obtain ⟨h1, h2, h3, h4, h5, h6, h7, h8, h9, h10⟩ := h
  refine ⟨hv.trans h1, hl.symm ▸ h2, ?_, ?_, ?_, ?_, ?_, ?_, ?_, ?_⟩ <;>
    simp only [State.srcBase, State.dstBase, State.msgLen, hl, hp, hc, Cursors.nextBlock] at * <;> omega

/-- A completed command leaves a sound state: no race is left, and every other promise is DMEM's (20_memory.md R72). -/
theorem inv_complete {s : State} (hw : s.dmem.wf = true) (hb : s.dmem.below s.params.dmemSize = true)
    (hp : s.params.wf = true) (code : ErrCode) : (s.complete code).Inv :=
  ⟨hw, hb, hp, (phaseOk_idle rfl).2 rfl, rfl⟩

/-- A core step keeps soundness. -/
theorem CoreMove.inv {s t : State} (h : CoreMove s t) (hi : s.Inv) : t.Inv := by
  obtain ⟨hw, hb, hpar, hph, hv⟩ := hi
  cases h with
  | idle => exact ⟨hw, hb, hpar, hph, hv⟩
  | illegal | initKey | initNonce | initOk | blockNone | blockOk | applyEnd =>
    apply inv_complete <;> assumption
  | applyStart hp hd hver =>
    obtain ⟨hdone, herr⟩ := (phaseOk_decode hp).1 hph
    exact ⟨hw, hb, hpar, (phaseOk_gen rfl).2 ⟨hdone, herr, .of_applyVerdict hd hver⟩, hv⟩
  | gen hp =>
    obtain ⟨hdone, herr, hl⟩ := (phaseOk_gen hp).1 hph
    have hn : s.genStep.cur.j < s.genStep.cur.n := by have := hl.rem_pos; simp; omega
    exact ⟨hw, hb, hpar, (phaseOk_xor rfl).2 ⟨hdone, herr, hl.of_fields rfl rfl rfl rfl rfl rfl, rfl, hn⟩, hv⟩
  | xorByte hp hj hs hd hne =>
    obtain ⟨hdone, herr, hl, hn, hlt⟩ := (phaseOk_xor hp).1 hph
    refine ⟨xorStore_wf hw hj, by simpa using xorStore_below hb hj hd, by simpa using hpar, ?_, by simpa using hv⟩
    have hl' := hl.of_fields (t := { s.xorStore hj with cur := { s.cur with j := s.cur.j + 1 } })
      (by simp) (by simp) (by simp) rfl rfl rfl
    have hlt' : s.cur.j + 1 < s.cur.n := by omega
    exact (phaseOk_xor (by simpa using hp)).2 ⟨by simpa using hdone, by simpa using herr, hl', hn, hlt'⟩
  | xorBlock hp hj hs hd heq hr =>
    obtain ⟨hdone, herr, hl, hn, -⟩ := (phaseOk_xor hp).1 hph
    refine ⟨xorStore_wf hw hj, by simpa using xorStore_below hb hj hd, by simpa using hpar, ?_, by simpa using hv⟩
    have hl' := hl.nextBlock (t := { s.xorStore hj with cur := s.cur.nextBlock, phase := .gen }) hn hr
      (by simp) (by simp) (by simp) rfl
    exact (phaseOk_gen rfl).2 ⟨by simpa using hdone, by simpa using herr, hl'⟩
  | xorEnd hp hj hs hd heq hr =>
    exact inv_complete (xorStore_wf hw hj) (by simpa using xorStore_below hb hj hd) (by simpa using hpar) .ok

/-- A reset leaves a sound state (70_reset_and_hazards.md R260, R261). -/
theorem inv_coreReset {s : State} (hi : s.Inv) : s.coreReset.Inv := by
  have ⟨hw, hb, hpar, _, _⟩ := hi
  refine ⟨?_, ?_, hpar, (phaseOk_idle rfl).2 rfl, rfl⟩ <;>
    rw [State.coreReset_dmem, State.dmemAfterReset]
  · split
    · exact (fillFree_read hw _ _ _).1
    · exact hw
  · split
    · rename_i hr; exact fillFree_below hb _ _ _ (applyRunning_ranges hi hr).2.1
    · exact hb

/-- What a phase promises survives a step that keeps the command's state, sets no DONE and starts no race in IDLE. -/
theorem phaseOk_of_fields {s t : State} (h : s.phaseOk = true) (hp : t.phase = s.phase) (hv : t.valid = s.valid)
    (hl : t.lat = s.lat) (hc : t.cur = s.cur) (hpar : t.params = s.params) (he : t.err = s.err)
    (hd : s.done = false → t.done = false) (hr : s.phase = .idle → t.race = s.race) : t.phaseOk = true := by
  cases hs : s.phase with
  | idle => exact (phaseOk_idle (hp.trans hs)).2 ((hr hs).trans ((phaseOk_idle hs).1 h))
  | decode =>
    obtain ⟨hdone, herr⟩ := (phaseOk_decode hs).1 h
    exact (phaseOk_decode (hp.trans hs)).2 ⟨hd hdone, he.trans herr⟩
  | gen =>
    obtain ⟨hdone, herr, hloop⟩ := (phaseOk_gen hs).1 h
    refine (phaseOk_gen (hp.trans hs)).2 ⟨hd hdone, he.trans herr, ?_⟩
    exact hloop.of_fields hv hl hpar (by rw [hc]) (by rw [hc]) (by rw [hc])
  | xor =>
    obtain ⟨hdone, herr, hloop, hn, hj⟩ := (phaseOk_xor hs).1 h
    refine (phaseOk_xor (hp.trans hs)).2 ⟨hd hdone, he.trans herr, ?_, by rw [hc]; exact hn, by rw [hc]; exact hj⟩
    exact hloop.of_fields hv hl hpar (by rw [hc]) (by rw [hc]) (by rw [hc])

theorem HostMove.inv {s t : State} (h : HostMove s t) (hi : s.Inv) : t.Inv := by
  obtain ⟨hw, hb, hpar, hph, hv⟩ := hi
  have hp : t.params = s.params := by rw [h.frame]
  refine ⟨h.wf hw, hp ▸ h.below hb, hp ▸ hpar, ?_, h.view hv⟩
  refine phaseOk_of_fields hph ?_ ?_ ?_ ?_ hp ?_ (fun hd => ?_) h.race <;> rw [h.frame]
  exact hd

/-- A host event keeps soundness. -/
theorem Move.inv {s t : State} {e : Event} (h : Move s e t) (hi : s.Inv) : t.Inv := by
  cases h with
  | mem h => exact h.inv hi
  | wait | ctrl | overrun | regs => exact hi
  | status v =>
    obtain ⟨hw, hb, hpar, hph, hv⟩ := hi
    exact ⟨hw, hb, hpar, phaseOk_of_fields hph rfl rfl rfl rfl rfl rfl (fun hd => by simp [hd]) (fun _ => rfl), hv⟩
  | accept hp he w =>
    obtain ⟨hw, hb, hpar, -, -⟩ := hi
    exact ⟨hw, hb, hpar, (phaseOk_decode rfl).2 ⟨rfl, rfl⟩, hw⟩

/-- Every step of the machine keeps soundness. -/
theorem step_inv {s t : State} (hi : s.Inv) (h : step s = .next t) : t.Inv := by
  obtain ⟨u, hu, h'⟩ := step_move h
  have hui : u.Inv := by
    rcases hu with rfl | ⟨l, rfl⟩
    · exact hi
    · exact hi
  rcases h' with ⟨-, hc⟩ | ⟨-, rfl⟩ | ⟨e, hm⟩
  · exact (coreStep_move hc).inv hui
  · exact inv_coreReset hui
  · exact hm.inv hui

end Sys2Proof.Machine
end

section
/-! The core steps a command has left, and that a sound core uses them up. -/

namespace Sys2Proof.Machine

/-- The core steps a busy core has left at most: for APPLY one per block to generate and one per byte to write
(70_reset_and_hazards.md R274). -/
def State.stepsLeft (s : State) : Nat :=
  match s.phase with
  | .idle => 0
  | .decode => applySteps s.msgLen
  | .gen => (s.cur.rem + 63) / 64 + s.cur.rem
  | .xor => (s.cur.rem - s.cur.n + 63) / 64 + (s.cur.rem - s.cur.j)

theorem stepsLeft_decode {s : State} (hp : s.phase = .decode) : s.stepsLeft = applySteps s.msgLen := by
  simp [State.stepsLeft, hp]

theorem stepsLeft_gen {s : State} (hp : s.phase = .gen) : s.stepsLeft = (s.cur.rem + 63) / 64 + s.cur.rem := by
  simp [State.stepsLeft, hp]

theorem stepsLeft_xor {s : State} (hp : s.phase = .xor) :
    s.stepsLeft = (s.cur.rem - s.cur.n + 63) / 64 + (s.cur.rem - s.cur.j) := by
  simp [State.stepsLeft, hp]

/-- In a sound state no more steps are left than the whole command takes. -/
theorem stepsLeft_le {s : State} (hi : s.Inv) : s.stepsLeft ≤ applySteps s.msgLen := by
  obtain ⟨-, -, -, hph, -⟩ := hi
  cases hp : s.phase with
  | idle => simp [State.stepsLeft, hp]
  | decode => exact (stepsLeft_decode hp).le
  | gen =>
    obtain ⟨-, -, hl⟩ := (phaseOk_gen hp).1 hph
    have hr := hl.rem_le
    rw [stepsLeft_gen hp, applySteps]
    omega
  | xor =>
    obtain ⟨-, -, hl, -⟩ := (phaseOk_xor hp).1 hph
    have hr := hl.rem_le
    rw [stepsLeft_xor hp, applySteps]
    omega

/-- A sound core can always take its step (44_stream_loop.md R190). -/
theorem exists_coreMove {s : State} (hi : s.Inv) : ∃ t, CoreMove s t := by
  obtain ⟨-, -, -, hph, -⟩ := hi
  cases hp : s.phase with
  | idle => exact ⟨_, .idle hp⟩
  | decode =>
    cases hd : decode s.lat.cmd with
    | reject e => exact ⟨_, .illegal hp e hd⟩
    | ok i =>
      cases i with
      | init =>
        by_cases hk : s.lat.keyLen = 32
        · by_cases hn : s.lat.nonceLen = 12
          · exact ⟨_, .initOk hp hd hk hn⟩
          · exact ⟨_, .initNonce hp hd hk hn⟩
        · exact ⟨_, .initKey hp hd hk⟩
      | block =>
        cases hv : s.valid with
        | false => exact ⟨_, .blockNone hp hd hv⟩
        | true => exact ⟨_, .blockOk hp hd hv⟩
      | apply =>
        cases hv : s.applyVerdict with
        | some c => exact ⟨_, .applyEnd hp hd c hv⟩
        | none => exact ⟨_, .applyStart hp hd hv⟩
  | gen => exact ⟨_, .gen hp⟩
  | xor =>
    obtain ⟨-, -, hl, hn, hlt⟩ := (phaseOk_xor hp).1 hph
    obtain ⟨hj, hs, hd⟩ := hl.xor_bounds hn hlt
    by_cases he : s.cur.j + 1 = s.cur.n
    · by_cases hr : s.cur.rem - s.cur.n = 0
      · exact ⟨_, .xorEnd hp hj hs hd he hr⟩
      · exact ⟨_, .xorBlock hp hj hs hd he hr⟩
    · exact ⟨_, .xorByte hp hj hs hd he⟩

/-- A core step of a sound busy core uses up one of the steps left, and ends the command with DONE or stays busy. -/
theorem CoreMove.progress {s t : State} (h : CoreMove s t) (hi : s.Inv) (hb : s.phase ≠ .idle) :
    t.stepsLeft < s.stepsLeft ∧ (t.phase = .idle → t.done = true) := by
  obtain ⟨-, -, -, hph, -⟩ := hi
  have ends {u : State} (hp : s.phase = .decode) (c : ErrCode) :
      (u.complete c).stepsLeft < s.stepsLeft ∧ ((u.complete c).phase = .idle → (u.complete c).done = true) := by
    rw [stepsLeft_decode hp, applySteps]
    exact ⟨by simp only [State.stepsLeft, State.complete_phase]; omega, fun _ => rfl⟩
  cases h with
  | idle hp => exact absurd hp hb
  | illegal hp | initKey hp | initNonce hp | initOk hp | blockNone hp | blockOk hp | applyEnd hp => exact ends hp _
  | applyStart hp =>
    rw [stepsLeft_decode hp, stepsLeft_gen rfl, applySteps]
    exact ⟨by dsimp only; omega, fun h => nomatch h⟩
  | gen hp =>
    obtain ⟨-, -, hl⟩ := (phaseOk_gen hp).1 hph
    have hr := hl.rem_pos
    rw [stepsLeft_gen hp, stepsLeft_xor rfl]
    exact ⟨by simp only [State.genStep_cur]; omega, fun h => nomatch h⟩
  | xorByte hp hj hs hd hne =>
    obtain ⟨-, -, hl, hn, hlt⟩ := (phaseOk_xor hp).1 hph
    have hp' : ({ s.xorStore hj with cur := { s.cur with j := s.cur.j + 1 } } : State).phase = .xor := by
      simpa using hp
    rw [stepsLeft_xor hp, stepsLeft_xor hp']
    exact ⟨by dsimp only; omega, fun h => by rw [hp'] at h; cases h⟩
  | xorBlock hp hj hs hd heq hr =>
    obtain ⟨-, -, hl, hn, hlt⟩ := (phaseOk_xor hp).1 hph
    rw [stepsLeft_xor hp, stepsLeft_gen rfl]
    exact ⟨by simp only [Cursors.nextBlock]; omega, fun h => nomatch h⟩
  | xorEnd hp hj hs hd heq hr =>
    obtain ⟨-, -, hl, hn, hlt⟩ := (phaseOk_xor hp).1 hph
    rw [stepsLeft_xor hp]
    exact ⟨by simp only [State.stepsLeft, State.complete_phase]; omega, fun _ => rfl⟩

/-- A sound busy core with nothing else scheduled is idle with DONE = 1 within the steps it has left: the count falls with
every step. -/
theorem completes_within {s : State} {n : Nat} (hi : s.Inv) (hin : s.inputs = []) (hb : s.phase ≠ .idle)
    (hn : s.stepsLeft ≤ n) :
    ∃ k t, k ≤ n ∧ Host.Core.run Sys2Proof.core k s = .next t ∧ t.phase = .idle ∧ t.done = true := by
  induction n generalizing s with
  | zero =>
    obtain ⟨u, hu⟩ := exists_coreMove hi
    have := (hu.progress hi hb).1
    omega
  | succ n ih =>
    obtain ⟨u, hu⟩ := exists_coreMove hi
    have hstep : step s = .next u := (step_alone hin).trans hu.coreStep_eq
    obtain ⟨hlt, hdone⟩ := hu.progress hi hb
    by_cases hui : u.phase = .idle
    · exact ⟨1, u, by omega, run_succ hstep, hui, hdone hui⟩
    · obtain ⟨k, t, hk, hrun, ht⟩ := ih (hu.inv hi) (hu.coreFrame.inputs.trans hin) hui (by omega)
      exact ⟨k + 1, t, by omega, (run_succ hstep).trans hrun, ht⟩

/-- Settles O50: a step is a core step, a reset or a host event, and each keeps soundness. -/
theorem stepKeepsSoundness : Obligations.StepKeepsSoundness :=
  fun _ _ hi h => step_inv hi h

/-- Settles O60, by induction on the steps left. -/
theorem everyCommandCompletes : Obligations.EveryCommandCompletes :=
  fun _ hi hin hb => completes_within hi hin hb (stepsLeft_le hi)

end Sys2Proof.Machine
end

section
/-! Who writes the cipher state, VALID and the phase, read off the moves of the machine. -/

namespace Sys2Proof.Machine

/-- The counter increment changes words 12 and 13 only (44_stream_loop.md R192). -/
theorem ctrInc_getElem_other (w : Words) {i : Fin 16} (h12 : i ≠ 12) (h13 : i ≠ 13) : (ctrInc w)[i] = w[i] := by
  have h12' : 12 ≠ i.val := fun h => h12 (Fin.ext h.symm)
  have h13' : 13 ≠ i.val := fun h => h13 (Fin.ext h.symm)
  simp only [ctrInc, Fin.getElem_fin]
  split <;> simp [h12', h13']

/-- A core step changes a word of st only by a successful INIT or by GEN's counter increment (10_state.md R22). -/
theorem CoreMove.st_changed {s t : State} (h : CoreMove s t) {i : Fin 16} (hne : t.st[i] ≠ s.st[i]) :
    (s.phase = .decode ∧ t.phase = .idle ∧ s.lat.cmd = 0x00000001 ∧ s.lat.keyLen = 32 ∧ s.lat.nonceLen = 12) ∨
      (s.phase = .gen ∧ t.phase = .xor ∧ (i = 12 ∨ i = 13)) := by
  cases h with
  | initOk hp hd hk hn => exact .inl ⟨hp, rfl, eq_encode_of_decode hd, hk, hn⟩
  | gen hp =>
    refine .inr ⟨hp, rfl, ?_⟩
    by_contra hi
    obtain ⟨h12, h13⟩ := not_or.1 hi
    exact hne (ctrInc_getElem_other s.st h12 h13)
  | idle | illegal | initKey | initNonce | blockNone | blockOk | applyEnd | applyStart => exact absurd rfl hne
  | xorByte | xorBlock | xorEnd => exact absurd (by simp) hne

/-- A core step changes VALID only by ending an INIT: to 1 exactly when both lengths are right (10_state.md R29, R36). -/
theorem CoreMove.valid_changed {s t : State} (h : CoreMove s t) (hne : t.valid ≠ s.valid) :
    s.phase = .decode ∧ s.lat.cmd = 0x00000001 ∧ t.phase = .idle ∧
      (t.valid = true ↔ s.lat.keyLen = 32 ∧ s.lat.nonceLen = 12) := by
  cases h with
  | initKey hp hd hk => exact ⟨hp, eq_encode_of_decode hd, rfl, iff_of_false Bool.false_ne_true fun h => hk h.1⟩
  | initNonce hp hd hk hn => exact ⟨hp, eq_encode_of_decode hd, rfl, iff_of_false Bool.false_ne_true fun h => hn h.2⟩
  | initOk hp hd hk hn => exact ⟨hp, eq_encode_of_decode hd, rfl, iff_of_true rfl ⟨hk, hn⟩⟩
  | idle | illegal | blockNone | blockOk | applyEnd | applyStart | gen => exact absurd rfl hne
  | xorByte | xorBlock | xorEnd => exact absurd (by simp) hne

/-- No host event writes st or VALID. -/
theorem Move.cipher {s t : State} {e : Event} (h : Move s e t) : t.st = s.st ∧ t.valid = s.valid := by
  cases h with
  | mem h => rw [h.frame]; exact ⟨rfl, rfl⟩
  | wait | ctrl | status | accept | overrun | regs => exact ⟨rfl, rfl⟩

/-- The phase after a core step in DECODE: the command ends, or a checked APPLY goes on to GEN (10_state.md R26). -/
theorem CoreMove.phase_of_decode {s t : State} (h : CoreMove s t) (hp : s.phase = .decode) :
    t.phase = .idle ∨ (t.phase = .gen ∧ s.lat.cmd = 0x00000003 ∧ 0 < s.msgLen) := by
  cases h with
  | illegal | initKey | initNonce | initOk | blockNone | blockOk | applyEnd => exact .inl rfl
  | applyStart _ hd hv => exact .inr ⟨rfl, eq_encode_of_decode hd, ((applyVerdict_none_iff s).1 hv).2.1⟩
  | idle hp' | gen hp' | xorByte hp' | xorBlock hp' | xorEnd hp' => rw [hp] at hp'; cases hp'

theorem CoreMove.phase_of_gen {s t : State} (h : CoreMove s t) (hp : s.phase = .gen) : t.phase = .xor := by
  cases h with
  | gen => rfl
  | idle hp' | illegal hp' | initKey hp' | initNonce hp' | initOk hp' | blockNone hp' | blockOk hp' | applyEnd hp'
  | applyStart hp' | xorByte hp' | xorBlock hp' | xorEnd hp' => rw [hp] at hp'; cases hp'

/-- The phase after an XOR step, by the three ends of 44_stream_loop.md R195. -/
theorem CoreMove.phase_of_xor {s t : State} (h : CoreMove s t) (hp : s.phase = .xor) :
    (s.cur.j + 1 ≠ s.cur.n → t.phase = .xor) ∧
      (s.cur.j + 1 = s.cur.n → s.cur.n < s.cur.rem → t.phase = .gen) ∧
      (s.cur.j + 1 = s.cur.n → s.cur.n = s.cur.rem → t.phase = .idle ∧ t.err = .ok) := by
  cases h with
  | xorByte _ hj hs hd hn =>
    exact ⟨fun _ => by simpa using hp, fun he => absurd he hn, fun he => absurd he hn⟩
  | xorBlock _ hj hs hd hn hr =>
    exact ⟨fun hne => absurd hn hne, fun _ _ => rfl, fun _ he => absurd (by omega) hr⟩
  | xorEnd _ hj hs hd hn hr =>
    exact ⟨fun hne => absurd hn hne, fun _ hlt => absurd hr (by omega), fun _ _ => ⟨rfl, rfl⟩⟩
  | idle hp' | illegal hp' | initKey hp' | initNonce hp' | initOk hp' | blockNone hp' | blockOk hp' | applyEnd hp'
  | applyStart hp' | gen hp' => rw [hp] at hp'; cases hp'

/-- An idle core does nothing (60_exceptions.md R250). -/
theorem CoreMove.eq_of_idle {s t : State} (h : CoreMove s t) (hp : s.phase = .idle) : t = s :=
  Host.Outcome.next.inj (h.coreStep_eq.symm.trans (CoreMove.idle hp).coreStep_eq)

/-- Of the host's events only a CMD write to an idle core moves the phase (30_encoding.md R96). -/
theorem Move.phase {s t : State} {e : Event} (h : Move s e t) :
    t.phase = s.phase ∨ (s.phase = .idle ∧ t.phase = .decode ∧ s.cmdWriteBy e) := by
  cases h with
  | mem h => rw [h.frame]; exact .inl rfl
  | wait | ctrl | status | overrun | regs => exact .inl rfl
  | accept hp he => exact .inr ⟨hp, rfl, he⟩

/-- Taking the oldest event from the schedule touches none of these fields (log 4). -/
theorem fields_of_taken {s u : State} (h : u = s ∨ ∃ l, u = { s with inputs := l }) :
    u.st = s.st ∧ u.valid = s.valid ∧ u.phase = s.phase ∧ u.lat = s.lat := by
  rcases h with rfl | ⟨l, rfl⟩ <;> exact ⟨rfl, rfl, rfl, rfl⟩

/-- Settles O54: of the moves of a step only a successful INIT, GEN and a reset write st. -/
theorem onlyInitGenAndResetWriteTheState : Obligations.OnlyInitGenAndResetWriteTheState := by
  intro s t i h hne
  obtain ⟨u, hu, h'⟩ := step_move h
  obtain ⟨hst, -, hph, hlat⟩ := fields_of_taken hu
  rw [← hst] at hne
  rcases h' with ⟨ht, hc⟩ | ⟨hr, -⟩ | ⟨e, hm⟩
  · have hw := (coreStep_move hc).st_changed hne
    rw [hph, hlat] at hw
    exact hw.imp (fun hi => ⟨ht, hi⟩) (fun hg => .inl ⟨ht, hg⟩)
  · exact .inr (.inr hr)
  · exact absurd (by rw [hm.cipher.1]) hne

/-- Settles O55: of the moves of a step only the ends of INIT and a reset write VALID. -/
theorem onlyInitAndResetChangeValid : Obligations.OnlyInitAndResetChangeValid := by
  intro s t h hne
  obtain ⟨u, hu, h'⟩ := step_move h
  obtain ⟨-, hvalid, hph, hlat⟩ := fields_of_taken hu
  rw [← hvalid] at hne
  rcases h' with ⟨ht, hc⟩ | ⟨⟨rest, hr⟩, rfl⟩ | ⟨e, hm⟩
  · have hw := (coreStep_move hc).valid_changed hne
    rw [hph, hlat] at hw
    exact .inl ⟨ht, hw⟩
  · exact .inr ⟨rest, hr, rfl⟩
  · exact absurd hm.cipher.2 hne

/-- Settles O56: the core's half by phase, the host's half because only an accept moves the phase. -/
theorem phasesFollowTheTable : Obligations.PhasesFollowTheTable := by
  refine ⟨fun s t h => ?_, fun s t e hcore hrefused hreset h => ?_⟩
  · have hm : CoreMove s t := coreStep_move h
    exact ⟨hm.eq_of_idle, hm.phase_of_decode, hm.phase_of_gen, fun hp => (hm.phase_of_xor hp).1,
      fun hp => (hm.phase_of_xor hp).2.1, fun hp => (hm.phase_of_xor hp).2.2⟩
  · rcases runEvent_move h with ⟨hc, -⟩ | ⟨hr, -⟩ | hm
    · exact (hc.elim hcore hrefused).elim
    · exact absurd hr hreset
    · exact hm.phase

/-- Settles O58: the core makes the same move with other operand registers. -/
theorem runningCommandIgnoresOperandRegisters : Obligations.RunningCommandIgnoresOperandRegisters :=
  fun _ _ r b h => ((coreStep_move h).with_regs r b).coreStep_eq

/-- Settles O59, from the frame of every core move. -/
theorem coreStepsLeaveHostRegisters : Obligations.CoreStepsLeaveHostRegisters := by
  intro s t h
  obtain ⟨hregs, hirq, hover, hlat, hparams, hinputs, hreads, hdraws⟩ := (coreStep_move h).coreFrame
  exact ⟨hregs, hirq, hover, hlat, hparams, hinputs, hreads, hdraws⟩

/-- Settles O4, by the schedule and then by the phase. -/
theorem stepRunsTheDecodedCommand : Obligations.StepRunsTheDecodedCommand := by
  refine ⟨fun s e rest h => ?_, fun s h => step_alone h, fun s i hp hd => ?_, fun s hp => ?_, fun s hp => ?_⟩
  · simp only [step, h]
  · simp only [runEvent, coreStep, hp, State.decodeStep, hd]
  · rcases hp with hp | hp <;> simp only [runEvent, coreStep, hp]
  · exact (CoreMove.idle hp).coreStep_eq

end Sys2Proof.Machine
end

section
/-! The register window: which register an offset names, and what a read and a write of each register do. -/

namespace Sys2Proof.Machine

/-- An aligned offset of the window names a register exactly when it is that register's (10_state.md R30). -/
theorem ofOffset_eq_some_iff {off : Nat} (hlt : off < 256) (h4 : off % 4 = 0) (r : Reg) :
    Reg.ofOffset off = some r ↔ off = r.offset :=
  ⟨ofOffset_some ((regAccessOk_iff off 4).2 ⟨rfl, h4, hlt⟩), fun h => h ▸ ofOffset_offset r⟩

/-- The two reserved ranges of the window (10_state.md R30, R44). -/
theorem ofOffset_eq_none_iff {off : Nat} (hlt : off < 256) (h4 : off % 4 = 0) :
    Reg.ofOffset off = none ↔ (0x024 ≤ off ∧ off ≤ 0x03C) ∨ (0x06C ≤ off ∧ off ≤ 0x07C) := by
  have table : ∀ k : Fin 64, Reg.ofOffset (4 * k.val) = none ↔
      (0x024 ≤ 4 * k.val ∧ 4 * k.val ≤ 0x03C) ∨ (0x06C ≤ 4 * k.val ∧ 4 * k.val ≤ 0x07C) := by decide
  simpa only [show 4 * (off / 4) = off by omega] using table ⟨off / 4, by omega⟩

/-- An aligned 32-bit access to reserved space reads 0 and writes nothing (10_state.md R44). -/
theorem reserved_access (s : State) {off : Nat} (v : Word) (h4 : off % 4 = 0)
    (h : (0x024 ≤ off ∧ off ≤ 0x03C) ∨ (0x06C ≤ off ∧ off ≤ 0x07C)) :
    runEvent (.regRead off 4) s = .next { s with reads := .reg off 0 :: s.reads } ∧
      runEvent (.regWrite off 4 v) s = .next s := by
  have hlt : off < 256 := by omega
  have hok := (regAccessOk_iff off 4).2 ⟨rfl, h4, hlt⟩
  have hnone := (ofOffset_eq_none_iff hlt h4).2 h
  refine ⟨?_, ?_⟩
  · simp only [runEvent, hostRegRead, if_pos hok, hnone]
    rfl
  · simp only [runEvent, hostRegWrite, if_pos hok, hnone]

/-- A write at a read view is ignored (10_state.md R44). -/
theorem view_write_ignored (s : State) {off : Nat} (v : Word) (h4 : off % 4 = 0) (hlo : 0x080 ≤ off) (hhi : off ≤ 0x0FC) :
    runEvent (.regWrite off 4 v) s = .next s := by
  by_cases hks : 0x0C0 ≤ off
  · have ho : off = (Reg.ks ⟨(off - 0x0C0) / 4, by omega⟩).offset := by simp only [Reg.offset]; omega
    rw [ho, regWrite_at]
    rfl
  · have ho : off = (Reg.state ⟨(off - 0x080) / 4, by omega⟩).offset := by simp only [Reg.offset]; omega
    rw [ho, regWrite_at]
    rfl

/-- A read of a register that draws no free value records its value and changes nothing else (20_memory.md R67). -/
theorem regRead_defined (s : State) (r : Reg) (h : s.regDraws r = 0) :
    runEvent (.regRead r.offset 4) s = .next { s with reads := .reg r.offset (s.regValue r) :: s.reads } := by
  rw [regRead_at, h]
  rfl

/-- KSk after a run of the block function is output word k (10_state.md R46, 43_block_function.md R166). -/
theorem ksWord_of_block {s : State} {w : Words} (h : s.ks = block w) (k : Fin 16) :
    s.ksWord k = (permute w)[k] + w[k] := by
  have byte (i : Nat) (hi : i < 4) (hlt : 4 * k.val + i < 64) :
      s.ks[4 * k.val + i] = byteOf (blockWords w)[k] i := by
    have hdiv : (4 * k.val + i) / 4 = k.val := by omega
    have hmod : (4 * k.val + i) % 4 = i := by omega
    simp [h, block, serialize, hdiv, hmod]
  have h0 := byte 0 (by omega) (by omega)
  simp only [Nat.add_zero] at h0
  rw [State.ksWord, h0, byte 1, byte 2, byte 3, le32_byteOf]
  · simp [blockWords, feedForward]
  all_goals omega

/-- Settles O24: each register stands at its offset, and the 64 aligned offsets are listed. -/
theorem registerMapIsOneToOne : Obligations.RegisterMapIsOneToOne := by
  refine ⟨?_, fun k => ofOffset_offset (.key k), fun k => ofOffset_offset (.nonce k), fun k => ofOffset_offset (.state k),
    fun k => ofOffset_offset (.ks k), fun r off hlt h4 => ofOffset_eq_some_iff hlt h4 r, fun r => ?_,
    fun off hlt h4 => ofOffset_eq_none_iff hlt h4⟩
  · decide
  · obtain ⟨-, h4, hlt⟩ := (regAccessOk_iff r.offset 4).1 (regAccessOk_offset r)
    exact ⟨hlt, h4⟩

/-- The operand registers (10_state.md R41, R42, R43). -/
def operandReg : Reg → Bool
  | .keyLen | .nonceLen | .ctrInit | .src | .dst | .len | .key _ | .nonce _ => true
  | .ctrl | .status | .cmd | .state _ | .ks _ => false

/-- A write to an operand register changes the operand registers only. -/
theorem writeReg_operand_frame (s : State) {r : Reg} (v : Word) (h : operandReg r = true) :
    s.writeReg v r = { s with regs := (s.writeReg v r).regs } := by
  cases r with
  | ctrl | status | cmd | state | ks => cases h
  | _ => rfl

theorem regDraws_operand (s : State) {r : Reg} (h : operandReg r = true) : s.regDraws r = 0 := by
  cases r with
  | state | ks => cases h
  | _ => rfl

theorem regValue_writeReg_same (s : State) {r : Reg} (v : Word) (h : operandReg r = true) :
    (s.writeReg v r).regValue r = v := by
  cases r with
  | ctrl | status | cmd | state | ks => cases h
  | key | nonce => simp [State.writeReg, State.regValue]
  | _ => rfl

/-- Two registers of different names share nothing; two of one array share nothing when their indices differ. -/
theorem regValue_writeReg_other (s : State) {q r : Reg} (v : Word) (h : operandReg r = true) (hq : q ≠ r) :
    (s.writeReg v r).regValue q = s.regValue q := by
  cases r with
  | ctrl | status | cmd | state | ks => cases h
  | key k =>
    cases q with
    | key j =>
      have hkj : k.val ≠ j.val := fun h => hq (by rw [Fin.ext h])
      simp [State.writeReg, State.regValue, hkj]
    | _ => rfl
  | nonce k =>
    cases q with
    | nonce j =>
      have hkj : k.val ≠ j.val := fun h => hq (by rw [Fin.ext h])
      simp [State.writeReg, State.regValue, hkj]
    | _ => rfl
  | _ => cases q <;> first | rfl | exact absurd rfl hq

/-- Settles O30, from what a write to an operand register does to each register's value. -/
theorem operandRegistersHoldTheirValue : Obligations.OperandRegistersHoldTheirValue := by
  intro s r v hctrl hstatus hcmd hstate hks
  have hr : operandReg r = true := by
    cases r with
    | ctrl => exact absurd rfl hctrl
    | status => exact absurd rfl hstatus
    | cmd => exact absurd rfl hcmd
    | state k => exact absurd rfl (hstate k)
    | ks k => exact absurd rfl (hks k)
    | _ => rfl
  have hsame := regValue_writeReg_same s v hr
  refine ⟨_, regWrite_at s r v, writeReg_operand_frame s v hr, hsame, fun q hq => regValue_writeReg_other s v hr hq, ?_⟩
  rw [regRead_defined _ r (regDraws_operand _ hr), hsame]

/-- Settles O33: after a BLOCK the core is idle and ks holds the block of st. -/
theorem ksReadsOutputWord : Obligations.KsReadsOutputWord := by
  intro s t k hv h
  have ht : t = s.runBlock.complete .ok := by
    simp only [exec, execBlock, hv] at h
    cases h; rfl
  have hidle : t.busy = false := by rw [ht]; rfl
  have hks : t.ks = block s.st := by rw [ht]; rfl
  have hread := regRead_defined t (.ks k) (by simp [State.regDraws, hidle])
  simpa [Reg.offset, State.regValue, hidle, ksWord_of_block hks k] using hread

/-- Settles O25, by whether the access is an aligned 32-bit one. -/
theorem misalignedRegisterAccessFaults : Obligations.MisalignedRegisterAccessFaults := by
  intro s off size v hlt
  refine ⟨fun h => ?_, fun hsize h4 => ?_⟩
  · have hbad : ¬regAccessOk off size = true := by rw [regAccessOk_iff]; omega
    simp only [runEvent, hostRegRead, hostRegWrite, if_neg hbad, and_self]
  · have hok := (regAccessOk_iff off size).2 ⟨hsize, h4, hlt⟩
    simp only [runEvent, hostRegRead, hostRegWrite, if_pos hok]
    cases Reg.ofOffset off with
    | none => exact ⟨⟨_, rfl⟩, ⟨_, rfl⟩⟩
    | some r => exact ⟨⟨_, rfl⟩, ⟨_, rfl⟩⟩

/-- Settles O32: while idle no read draws a free value. -/
theorem readViewsWhenIdle : Obligations.ReadViewsWhenIdle := by
  intro s i hp
  have hidle : s.busy = false := by simp [State.busy, hp]
  have hst := regRead_defined s (.state i) (by simp [State.regDraws, hidle])
  have hks := regRead_defined s (.ks i) (by simp [State.regDraws, hidle])
  simp only [Reg.offset, State.regValue, hidle, State.ksWord, le32_eq_append] at hst hks
  exact ⟨hst, hks⟩

/-- Settles O34: while busy a read of a view draws one free value, and no other register's read ever does. -/
theorem readViewsWhenBusyAreFree : Obligations.ReadViewsWhenBusyAreFree := by
  refine ⟨fun s i hp => ?_, fun s => ?_⟩
  · have hbusy : s.busy = true := by simp [State.busy, hp]
    have hst := regRead_at s (.state i)
    have hks := regRead_at s (.ks i)
    simp only [Reg.offset, State.regValue, State.regDraws, hbusy, if_true] at hst hks
    exact ⟨hst, hks⟩
  · exact ⟨regRead_defined s .ctrl rfl, regRead_defined s .status rfl, regRead_defined s .cmd rfl,
      regRead_defined s .keyLen rfl, regRead_defined s .nonceLen rfl, regRead_defined s .ctrInit rfl,
      regRead_defined s .src rfl, regRead_defined s .dst rfl, regRead_defined s .len rfl,
      fun k => regRead_defined s (.key k) rfl, fun k => regRead_defined s (.nonce k) rfl⟩

end Sys2Proof.Machine
end

section
/-! The bits of STATUS and CTRL. -/

namespace Sys2Proof.Machine

/-- The low bits of STATUS (10_state.md R34). -/
theorem statusWord_low (s : State) :
    s.statusWord.getLsbD 0 = s.busy ∧ s.statusWord.getLsbD 1 = s.valid ∧ s.statusWord.getLsbD 2 = s.done ∧
      s.statusWord.getLsbD 3 = s.overrun := by
  simp only [State.statusWord, BitVec.getLsbD_append]
  simp

/-- The reserved fields of STATUS are 0 and its error field is the code (10_state.md R34). -/
theorem statusWord_fields (s : State) :
    s.statusWord.extractLsb' 4 4 = 0 ∧ s.statusWord.extractLsb' 8 4 = s.err.code ∧
      s.statusWord.extractLsb' 12 20 = 0 := by
  refine ⟨?_, ?_, ?_⟩ <;> apply BitVec.eq_of_getLsbD_eq <;> intro i hi <;>
    simp only [State.statusWord, BitVec.getLsbD_extractLsb', BitVec.getLsbD_append] <;> interval_cases i <;> simp

theorem ctrlWord_eq (s : State) : s.ctrlWord = if s.irqEn then 1 else 0 := by
  unfold State.ctrlWord
  cases s.irqEn <;> rfl

/-- The reserved bits of CTRL are 0 (10_state.md R33). -/
theorem ctrlWord_reserved (s : State) : s.ctrlWord.extractLsb' 1 31 = 0 := by
  rw [ctrlWord_eq]
  cases s.irqEn <;> rfl

/-- Settles O26, from the low bits and the fields of the STATUS word. -/
theorem statusBits : Obligations.StatusBits := by
  refine ⟨fun s => ?_, rfl, rfl, rfl, rfl, rfl, rfl, rfl⟩
  obtain ⟨h0, h1, h2, h3⟩ := statusWord_low s
  exact ⟨by rw [h0]; simp [State.busy], h1, h2, h3, statusWord_fields s⟩

/-- Settles O27, by whether each bit written is 1. -/
theorem statusWriteClearsByOnes : Obligations.StatusWriteClearsByOnes := by
  intro s v
  refine ⟨_, regWrite_at s .status v, rfl, ?_, ?_, rfl⟩
  · show (s.done && !v.getLsbD 2) = _
    cases v.getLsbD 2 <;> simp
  · show (s.overrun && !v.getLsbD 3) = _
    cases v.getLsbD 3 <;> simp

/-- Settles O28, from the CTRL word by IRQ_EN. -/
theorem ctrlWriteSetsIrqEnable : Obligations.CtrlWriteSetsIrqEnable :=
  fun s v => ⟨_, regWrite_at s .ctrl v, rfl, ctrlWord_eq _, rfl⟩

/-- Settles O31: of a CTRL write only bit 0 matters, of a STATUS write only bits 2 and 3. -/
theorem reservedAndReadOnlyRegisters : Obligations.ReservedAndReadOnlyRegisters := by
  refine ⟨fun s off v h4 h => reserved_access s v h4 h, fun s off v h4 hlo hhi => view_write_ignored s v h4 hlo hhi,
    fun s => ?_, fun s v => ⟨?_, ?_⟩⟩
  · obtain ⟨h4, -, h12⟩ := statusWord_fields s
    exact ⟨ctrlWord_reserved s, h4, h12⟩
  · have hbit : (v &&& 0x1).getLsbD 0 = v.getLsbD 0 := by simp
    have hw : s.writeReg (v &&& 0x1) .ctrl = s.writeReg v .ctrl := by
      simp only [State.writeReg, State.writeCtrl, hbit]
    exact (regWrite_at s .ctrl v).trans (hw ▸ (regWrite_at s .ctrl (v &&& 0x1)).symm)
  · have h2 : (v &&& 0xC).getLsbD 2 = v.getLsbD 2 := by simp
    have h3 : (v &&& 0xC).getLsbD 3 = v.getLsbD 3 := by simp
    have hw : s.writeReg (v &&& 0xC) .status = s.writeReg v .status := by
      simp only [State.writeReg, State.writeStatus, h2, h3]
    exact (regWrite_at s .status v).trans (hw ▸ (regWrite_at s .status (v &&& 0xC)).symm)

/-- Settles O45: the reset state holds these values field by field. -/
theorem resetValues : Obligations.ResetValues := by
  unfold Obligations.ResetValues
  decide

/-- Settles O49: the reset state is idle, without a race and with an empty DMEM. -/
theorem resetIsSound : Obligations.ResetIsSound :=
  ⟨rfl, rfl, by decide, (phaseOk_idle rfl).2 rfl, rfl⟩

end Sys2Proof.Machine
end

section
/-! The host bus: which window an access touches, and that an access inside one window is that window's. -/

namespace Sys2Proof.Machine

/-- Well-formed parameters keep the two windows apart (log 11). -/
theorem windows_apart {p : Params} (h : p.wf = true) :
    p.regBase + 256 ≤ p.dmemHostBase ∨ p.dmemHostBase + p.dmemSize ≤ p.regBase := by
  simp only [Params.wf, rangesDisjoint, Bool.and_eq_true, Bool.or_eq_true, decide_eq_true_eq] at h
  exact h.2

theorem touchesWindow_iff (p : Params) (addr size : Nat) :
    touchesWindow p addr size = true ↔ addr < p.regBase + 256 ∧ p.regBase < addr + size := by
  simp only [touchesWindow, Bool.and_eq_true, decide_eq_true_eq]
  rfl

theorem touchesDmem_iff (p : Params) (addr size : Nat) :
    touchesDmem p addr size = true ↔ addr < p.dmemHostBase + p.dmemSize ∧ p.dmemHostBase < addr + size := by
  simp [touchesDmem]

/-- Under well-formed parameters no address is in both windows. -/
theorem touchesBoth_of_wf {p : Params} (h : p.wf = true) (addr size : Nat) : ¬touchesBoth p addr size = true := by
  have hwindow : Config.regWindow = 256 := rfl
  have hapart := windows_apart h
  simp only [touchesBoth, decide_eq_true_eq]
  omega

/-- A second step that answers its own state changes nothing. -/
theorem andThen_next_right (r : Result) : andThen r (fun s => .next s) = r := by
  cases r <;> rfl

/-- A one-byte read inside DMEM's host range is that byte's read (20_memory.md R62). -/
theorem hostBusDmemRead_one {s : State} {a : Nat} (ha : a < s.params.dmemSize) :
    hostBusDmemRead (s.params.dmemHostBase + a) 1 s = hostDmemRead a s := by
  have ht : touchesDmem s.params (s.params.dmemHostBase + a) 1 = true := by rw [touchesDmem_iff]; omega
  simp only [hostBusDmemRead, if_pos ht, Nat.add_sub_cancel_left]
  exact andThen_next_right _

theorem hostBusDmemWrite_one {s : State} {a : Nat} (b : Byte) (ha : a < s.params.dmemSize) :
    hostBusDmemWrite (s.params.dmemHostBase + a) [b] s = hostDmemWrite a b s := by
  have ht : touchesDmem s.params (s.params.dmemHostBase + a) 1 = true := by rw [touchesDmem_iff]; omega
  simp only [hostBusDmemWrite, if_pos ht, Nat.add_sub_cancel_left]
  exact andThen_next_right _

/-- The bytes of an access outside DMEM's host range are not the core's (log 12). -/
theorem hostBusDmemRead_outside {s : State} {addr size : Nat}
    (h : addr + size ≤ s.params.dmemHostBase ∨ s.params.dmemHostBase + s.params.dmemSize ≤ addr) :
    hostBusDmemRead addr size s = .next s := by
  induction size generalizing addr with
  | zero => rfl
  | succ n ih =>
    have ht : ¬touchesDmem s.params addr 1 = true := by rw [touchesDmem_iff]; omega
    simp only [hostBusDmemRead, if_neg ht]
    exact ih (by omega)

theorem hostBusDmemWrite_outside {s : State} {addr : Nat} {bytes : List Byte}
    (h : addr + bytes.length ≤ s.params.dmemHostBase ∨ s.params.dmemHostBase + s.params.dmemSize ≤ addr) :
    hostBusDmemWrite addr bytes s = .next s := by
  induction bytes generalizing addr with
  | nil => rfl
  | cons b rest ih =>
    rw [List.length_cons] at h
    have ht : ¬touchesDmem s.params addr 1 = true := by rw [touchesDmem_iff]; omega
    simp only [hostBusDmemWrite, if_neg ht]
    exact ih (by omega)

/-- Under well-formed parameters a bus read that begins in the register window is a register read (10_state.md R30). -/
theorem hostBusRead_window {s : State} (hp : s.params.wf = true) {off size : Nat} (hlt : off < 256) (hs : 0 < size) :
    hostBusRead (s.params.regBase + off) size s = hostRegRead off size s := by
  have ht : touchesWindow s.params (s.params.regBase + off) size = true := by rw [touchesWindow_iff]; omega
  rw [hostBusRead, if_neg (touchesBoth_of_wf hp _ _), if_pos ht, if_pos (Nat.le_add_right _ _),
    Nat.add_sub_cancel_left]

theorem hostBusWrite_window {s : State} (hp : s.params.wf = true) {off : Nat} {bytes : List Byte} (hlt : off < 256)
    (hs : 0 < bytes.length) :
    hostBusWrite (s.params.regBase + off) bytes s = hostRegWrite off bytes.length (wordOfBusBytes bytes) s := by
  have ht : touchesWindow s.params (s.params.regBase + off) bytes.length = true := by rw [touchesWindow_iff]; omega
  rw [hostBusWrite, if_neg (touchesBoth_of_wf hp _ _), if_pos ht, if_pos (Nat.le_add_right _ _),
    Nat.add_sub_cancel_left]

/-- A bus read that stays out of the register window reaches DMEM's bytes only. -/
theorem hostBusRead_outside_window {s : State} (hp : s.params.wf = true) {addr size : Nat}
    (h : addr + size ≤ s.params.regBase ∨ s.params.regBase + 256 ≤ addr) :
    hostBusRead addr size s = hostBusDmemRead addr size s := by
  have ht : ¬touchesWindow s.params addr size = true := by rw [touchesWindow_iff]; omega
  rw [hostBusRead, if_neg (touchesBoth_of_wf hp _ _), if_neg ht]

theorem hostBusWrite_outside_window {s : State} (hp : s.params.wf = true) {addr : Nat} {bytes : List Byte}
    (h : addr + bytes.length ≤ s.params.regBase ∨ s.params.regBase + 256 ≤ addr) :
    hostBusWrite addr bytes s = hostBusDmemWrite addr bytes s := by
  have ht : ¬touchesWindow s.params addr bytes.length = true := by rw [touchesWindow_iff]; omega
  rw [hostBusWrite, if_neg (touchesBoth_of_wf hp _ _), if_neg ht]

/-- Settles O44: well-formed parameters keep the windows apart, so each access has one way to go. -/
theorem hostBusReachesBothWindows : Obligations.HostBusReachesBothWindows := by
  intro s hp
  have hapart := windows_apart hp
  refine ⟨fun off hlt => hostBusRead_window hp hlt (by omega), fun off b0 b1 b2 b3 hlt => ?_, fun a ha => ?_,
    fun a b ha => ?_, fun addr size hw hd => ?_, fun addr bytes hw hd => ?_⟩
  · rw [← le32_eq_append]
    exact hostBusWrite_window hp hlt (Nat.succ_pos 3)
  · exact (hostBusRead_outside_window hp (by omega)).trans (hostBusDmemRead_one ha)
  · exact (hostBusWrite_outside_window hp (by rw [List.length_singleton]; omega)).trans (hostBusDmemWrite_one b ha)
  · exact (hostBusRead_outside_window hp hw).trans (hostBusDmemRead_outside hd)
  · exact (hostBusWrite_outside_window hp hw).trans (hostBusDmemWrite_outside hd)

end Sys2Proof.Machine
end

section
/-! The host's reads: what a register read and a DMEM read change, racing or not. -/

namespace Sys2Proof.Machine

/-- A source byte the core has fetched is the one it saw then (20_memory.md R71). -/
theorem sourceByte_of_fetched {s : State} {a : Nat} {v : Byte} (h : s.race.fetched.lookup a = some v) :
    s.sourceByte a = v := by
  rw [State.sourceByte, h, Option.getD_some]

theorem sourceByte_of_not_fetched {s : State} {a : Nat} (h : s.race.fetched.lookup a = none) :
    s.sourceByte a = s.dmem.read a := by
  rw [State.sourceByte, h, Option.getD_none]

/-- What the core sees of a source byte depends only on what it has fetched and on that byte of DMEM. -/
theorem sourceByte_congr {s t : State} {a : Nat} (hf : t.race.fetched = s.race.fetched)
    (hd : t.dmem.read a = s.dmem.read a) : t.sourceByte a = s.sourceByte a := by
  rw [State.sourceByte, State.sourceByte, hf, hd]

/-- Fetching a source byte fixes the value the core sees already. -/
@[simp] theorem sourceByte_fetch (s : State) (a c : Nat) : (s.fetch a).sourceByte c = s.sourceByte c := by
  by_cases hc : c = a
  · subst hc
    exact sourceByte_of_fetched List.lookup_cons_self
  · have hskip : (s.fetch a).race.fetched.lookup c = s.race.fetched.lookup c := by
      rw [State.fetch_race, List.lookup_cons, beq_false_of_ne hc]
    rw [State.sourceByte, State.sourceByte, hskip, State.fetch_dmem]

/-- Settles O35, by whether the offset names a register. -/
theorem registerReadsHaveNoSideEffect : Obligations.RegisterReadsHaveNoSideEffect := by
  intro s t off size h
  simp only [runEvent, hostRegRead] at h
  split at h
  · split at h
    · cases h; exact ⟨rfl, _, rfl⟩
    · cases h; exact ⟨rfl, _, rfl⟩
  · cases h

/-- Settles O38: both accesses check the address first. -/
theorem hostMemoryAccessOutsideFaults : Obligations.HostMemoryAccessOutsideFaults := by
  intro s a b h
  exact ⟨if_pos h, if_pos h⟩

/-- A host read of a byte no APPLY is about to write records it (20_memory.md R67, R71). -/
theorem dmemRead_quiet {s : State} {a : Nat} (ha : a < s.params.dmemSize)
    (h : s.applyRunning = false ∨ s.inDest a = false) :
    runEvent (.dmemRead a) s = .next { s with reads := .dmem a (s.dmem.read a) :: s.reads } := by
  have hquiet : ¬(s.applyRunning && s.inDest a) = true := by
    rw [Bool.and_eq_true]
    rintro ⟨hr, hd⟩
    rcases h with h | h
    · exact Bool.false_ne_true (h.symm.trans hr)
    · exact Bool.false_ne_true (h.symm.trans hd)
  rw [runEvent, hostDmemRead, if_neg (Nat.not_le.2 ha), if_neg hquiet]
  rfl

theorem dmemRead_racing {s : State} {a : Nat} (ha : a < s.params.dmemSize) (hr : s.applyRunning = true)
    (hd : s.inDest a = true) : runEvent (.dmemRead a) s = .next (s.racingRead a) := by
  rw [runEvent, hostDmemRead, if_neg (Nat.not_le.2 ha), hr, hd]
  rfl

/-- Settles O39, by the free bit and by whether the core has written the byte. -/
theorem racingReadReturnsOldOrNew : Obligations.RacingReadReturnsOldOrNew := by
  intro s a ha hr hd
  refine ⟨s.racingRead a, dmemRead_racing ha hr hd, ?_⟩
  unfold State.racingRead
  dsimp only
  by_cases hbit : Config.freeBit s.draws = true
  · simp only [if_pos hbit]
    exact ⟨rfl, rfl, rfl, fun _ => rfl, rfl⟩
  · by_cases hwritten : a - s.dstBase < s.applied
    · simp only [if_neg hbit, if_pos hwritten]
      exact ⟨rfl, rfl, rfl, fun _ => rfl, rfl⟩
    · simp only [if_neg hbit, if_neg hwritten]
      exact ⟨rfl, rfl, rfl, fun c => sourceByte_fetch _ _ c, rfl⟩

end Sys2Proof.Machine
end

section
/-! The host's DMEM writes: one that does not race, and the two draws of one that does. -/

namespace Sys2Proof.Machine

/-- A host write outside the ranges of a running APPLY is a plain store (20_memory.md R71). -/
theorem dmemWrite_quiet {s : State} {a : Nat} (b : Byte) (ha : a < s.params.dmemSize)
    (h : s.applyRunning = false ∨ (s.inSource a = false ∧ s.inDest a = false)) :
    runEvent (.dmemWrite a b) s = .next (s.hostStore a b) := by
  have hquiet : ¬(s.applyRunning && (s.inSource a || s.inDest a)) = true := by
    rcases h with h | ⟨hs, hd⟩
    · rw [h]; exact Bool.false_ne_true
    · rw [hs, hd, Bool.or_false, Bool.and_false]; exact Bool.false_ne_true
  rw [runEvent, hostDmemWrite, if_neg (Nat.not_le.2 ha), if_neg hquiet]

/-- Settles O37: without a race a read records the byte and a write is a plain store. -/
theorem hostMemoryAccessWithoutRace : Obligations.HostMemoryAccessWithoutRace := by
  intro s a b ha hw hv
  refine ⟨dmemRead_quiet ha, fun h => ⟨_, dmemWrite_quiet b ha h, ?_, State.hostStore_fetched s a b,
    State.hostStore_landed s a b, ?_, fun c hc => ?_, fun hp => ?_, fun hp => ?_⟩⟩
  · rw [State.hostStore_dmem]; exact State.hostStore_frame s a b
  · rw [State.hostStore_dmem, Memory.read_write_same hw]
  · rw [State.hostStore_dmem, Memory.read_write_other hw b hc]
  · rw [State.hostStore_race_idle s a b hp]
  · have hbusy : s.busy = true := by simp [State.busy, hp]
    rw [State.hostStore_hostView, if_pos hbusy]
    exact ⟨Memory.read_write_same hv a b, fun c hc => Memory.read_write_other hv b hc⟩

/-- The source side fetches a byte that is still to be read and is not to be seen, and does nothing else. -/
theorem racingSource_eq (s : State) (a : Nat) (seen : Bool) :
    s.racingSource a seen =
      if s.inSource a = true ∧ s.applied ≤ a - s.srcBase ∧ seen = false then s.fetch a else s := by
  simp [State.racingSource, and_assoc]

theorem racingSource_fetched (s : State) (a : Nat) (seen : Bool) :
    (s.racingSource a seen).race.fetched =
      if s.inSource a = true ∧ s.applied ≤ a - s.srcBase ∧ seen = false then (a, s.sourceByte a) :: s.race.fetched
      else s.race.fetched := by
  rw [racingSource_eq]
  split <;> rfl

@[simp] theorem sourceByte_racingSource (s : State) (a : Nat) (seen : Bool) (c : Nat) :
    (s.racingSource a seen).sourceByte c = s.sourceByte c := by
  rw [racingSource_eq]
  split
  · exact sourceByte_fetch s a c
  · rfl

/-- A racing host write, its two sides together: outside the byte nothing changes, the first free bit decides whether
the core sees the byte, the second whose value is final (20_memory.md R71, log 7). -/
structure RacingWrite (s : State) (a : Nat) (b : Byte) (t : State) : Prop where
  frame : t = { s with dmem := t.dmem, race := t.race, draws := s.draws + 2 }
  wf : t.dmem.wf = true
  fetched : t.race.fetched =
    if s.inSource a = true ∧ s.applied ≤ a - s.srcBase ∧ Config.freeBit s.draws = false then
      (a, s.sourceByte a) :: s.race.fetched
    else s.race.fetched
  hostView : t.race.hostView.read a = b
  others : ∀ c, c ≠ a →
    t.dmem.read c = s.dmem.read c ∧ t.sourceByte c = s.sourceByte c ∧
      t.race.hostView.read c = s.race.hostView.read c ∧ (c ∈ t.race.landed ↔ c ∈ s.race.landed)
  fresh : s.inDest a = false ∨ s.applied ≤ a - s.dstBase → t.dmem.read a = b
  written : s.inDest a = true → a - s.dstBase < s.applied →
    t.dmem.read a = if Config.freeBit (s.draws + 1) then b else s.dmem.read a
  lands : s.inDest a = true → s.applied ≤ a - s.dstBase →
    (a ∈ t.race.landed ↔ Config.freeBit (s.draws + 1) = true)

theorem racingWrite_spec {s : State} (hb : s.busy = true) (hw : s.dmem.wf = true) (hv : s.race.hostView.wf = true)
    (a : Nat) (b : Byte) : RacingWrite s a b (s.racingWrite a b) := by
  have hfetch := racingSource_fetched { s with draws := s.draws + 2 } a (Config.freeBit s.draws)
  have hsource := sourceByte_racingSource { s with draws := s.draws + 2 } a (Config.freeBit s.draws)
  obtain ⟨l, hl⟩ := racingSource_frame { s with draws := s.draws + 2 } a (Config.freeBit s.draws)
  rw [State.racingWrite]
  rw [hl] at hfetch hsource ⊢
  obtain ⟨hframe, hwf, hfetched, hview, hothers, hfresh, hwritten, hlands⟩ := racingDest_spec
    (s := { s with draws := s.draws + 2, race := { s.race with fetched := l } }) hb hw a b
    (Config.freeBit (s.draws + 1))
  refine ⟨hframe, hwf, hfetched.trans hfetch, ?_, fun c hc => ?_, hfresh, hwritten, hlands⟩
  · rw [hview]; exact Memory.read_write_same hv a b
  · obtain ⟨hd, hlanded⟩ := hothers c hc
    refine ⟨hd, (sourceByte_congr hfetched hd).trans (hsource c), ?_, hlanded⟩
    rw [hview]; exact Memory.read_write_other hv b hc

/-- A host write into a range of a sound running APPLY answers, and races. -/
theorem dmemWrite_racing {s : State} (hi : s.Inv) (hr : s.applyRunning = true) {a : Nat} (b : Byte)
    (h : s.inSource a = true ∨ s.inDest a = true) :
    ∃ t, runEvent (.dmemWrite a b) s = .next t ∧ RacingWrite s a b t := by
  obtain ⟨hsrc, hdst, -⟩ := applyRunning_ranges hi hr
  have ha : a < s.params.dmemSize := by
    rw [inSource_iff, inDest_iff] at h
    omega
  obtain ⟨hw, -, -, -, hv⟩ := hi
  have hbusy : s.busy = true := by simp [State.busy, applyRunning_busy hr]
  refine ⟨s.racingWrite a b, ?_, racingWrite_spec hbusy hw hv a b⟩
  rw [runEvent, hostDmemWrite, if_neg (Nat.not_le.2 ha), if_pos (by rw [hr, Bool.true_and, Bool.or_eq_true]; exact h)]

/-- A byte of both ranges of a sound running APPLY is in them at the same index: the command works in place. -/
theorem srcBase_eq_dstBase {s : State} (hi : s.Inv) (hr : s.applyRunning = true) {a : Nat} (hs : s.inSource a = true)
    (hd : s.inDest a = true) : s.srcBase = s.dstBase := by
  obtain ⟨-, -, hapart⟩ := applyRunning_ranges hi hr
  rw [inSource_iff] at hs
  rw [inDest_iff] at hd
  omega

/-- Settles O41, from the racing write at a byte of the source range. -/
theorem racingSourceWriteSeenOrNot : Obligations.RacingSourceWriteSeenOrNot := by
  intro s a b hi hr hs
  obtain ⟨t, ht, hframe, -, hfetched, hview, hothers, hfresh, -, -⟩ := dmemWrite_racing hi hr b (.inl hs)
  have hstored : s.applied ≤ a - s.srcBase ∨ s.inDest a = false → t.dmem.read a = b := by
    intro h
    cases hd : s.inDest a with
    | false => exact hfresh (.inl hd)
    | true =>
      have hin := srcBase_eq_dstBase hi hr hs hd
      exact hfresh (.inr (hin ▸ h.resolve_right (by simp [hd])))
  refine ⟨t, ht, hframe, hstored, fun hunread hnone => ?_, fun v hv => ?_, fun hread => ?_, hview, hothers⟩
  · cases hbit : Config.freeBit s.draws with
    | true =>
      rw [if_neg (by simp [hbit])] at hfetched
      rw [sourceByte_of_not_fetched (hfetched ▸ hnone)]
      exact hstored (.inl hunread)
    | false =>
      rw [if_pos ⟨hs, hunread, hbit⟩] at hfetched
      have hseen : t.sourceByte a = s.sourceByte a := sourceByte_of_fetched (hfetched ▸ List.lookup_cons_self)
      rw [hseen, sourceByte_of_not_fetched hnone]
      rfl
  · rw [sourceByte_of_fetched]
    rw [hfetched]
    split
    · rw [List.lookup_cons_self, sourceByte_of_fetched hv]
    · exact hv
  · rw [hfetched, if_neg fun h => Nat.not_le.2 hread h.2.1]

/-- The core's write of a byte after a race: kept out where the byte is the host's for good. -/
theorem read_coreStore_same {s : State} (hw : s.dmem.wf = true) (a : Nat) (v : Byte) :
    (s.coreStore a v).dmem.read a = if a ∈ s.race.landed then s.dmem.read a else v := by
  rw [State.coreStore_dmem]
  split
  · rfl
  · exact Memory.read_write_same hw a v

theorem read_coreStore_other {s : State} (hw : s.dmem.wf = true) {a c : Nat} (v : Byte) (hc : c ≠ a) :
    (s.coreStore a v).dmem.read c = s.dmem.read c := by
  rw [State.coreStore_dmem]
  split
  · rfl
  · exact Memory.read_write_other hw v hc

/-- Settles O42, from the racing write at a byte of the destination range. -/
theorem racingDestinationWriteKeepsOneOfTwo : Obligations.RacingDestinationWriteKeepsOneOfTwo := by
  intro s a b hi hr hd
  obtain ⟨t, ht, hframe, hwf, -, hview, hothers, hfresh, hwritten, hlands⟩ := dmemWrite_racing hi hr b (.inr hd)
  refine ⟨t, ht, hframe, hwritten hd, fun hpending => ⟨hfresh (.inr hpending), fun v => ?_⟩, hview, hothers⟩
  simp only [read_coreStore_same hwf, hlands hd hpending, hfresh (.inr hpending)]

end Sys2Proof.Machine
end

section
/-! The keystream APPLY still has to use, and the byte it still has to write (44_stream_loop.md R193, R194, R199). -/

namespace Sys2Proof.Machine

/-- The two words of the counter after one more: word 12 wraps, and its carry goes into word 13. -/
theorem counter_succ_words (w : Words) :
    (counter w + 1).extractLsb' 0 32 = w[12] + 1 ∧
      (counter w + 1).extractLsb' 32 32 = if w[12] + 1 = 0 then w[13] + 1 else w[13] := by
  have h12 := w[12].isLt
  have h13 := w[13].isLt
  have hc : (counter w + 1).toNat = (w[13].toNat * 2 ^ 32 + w[12].toNat + 1) % 2 ^ 64 := by
    rw [← counter_toNat]
    exact BitVec.toNat_add _ 1
  have hs12 : (w[12] + 1).toNat = (w[12].toNat + 1) % 2 ^ 32 := BitVec.toNat_add _ 1
  have hs13 : (w[13] + 1).toNat = (w[13].toNat + 1) % 2 ^ 32 := BitVec.toNat_add _ 1
  have hzero : w[12] + 1 = 0 ↔ (w[12].toNat + 1) % 2 ^ 32 = 0 := by rw [← BitVec.toNat_inj, hs12]; rfl
  refine ⟨BitVec.eq_of_toNat_eq ?_, BitVec.eq_of_toNat_eq ?_⟩
  · rw [BitVec.extractLsb'_toNat, hc, hs12, Nat.shiftRight_zero]
    omega
  · rw [BitVec.extractLsb'_toNat, hc, Nat.shiftRight_eq_div_pow]
    split <;> rename_i h <;> rw [hzero] at h
    · rw [hs13]
      omega
    · omega

/-- CtrInc is one more on the 64-bit counter (44_stream_loop.md R192). -/
theorem ctrInc_eq_withCounter (w : Words) : ctrInc w = withCounter w (counter w + 1) := by
  obtain ⟨hlow, hhigh⟩ := counter_succ_words w
  rw [withCounter, hlow, hhigh, ctrInc]
  simp only [Vector.getElem_set_self]
  split
  · simp only [Vector.getElem_set_ne _ _ (show 12 ≠ 13 by decide)]
  · apply Vector.ext
    intro i hi
    by_cases h : 13 = i
    · subst h; simp
    · simp only [Vector.getElem_set_ne _ _ h]

/-- The keystream after CtrInc is the keystream before it without its first block (44_stream_loop.md R199). -/
theorem keystreamByte_ctrInc (w : Words) (k : Nat) : keystreamByte (ctrInc w) k = keystreamByte w (k + 64) := by
  have hcounter : counter w + 1 + BitVec.ofNat 64 (k / 64) = counter w + BitVec.ofNat 64 ((k + 64) / 64) := by
    rw [Nat.add_div_right k (by decide), BitVec.ofNat_add, BitVec.add_assoc, BitVec.add_comm 1]
    rfl
  simp only [keystreamByte, ctrInc_eq_withCounter, counter_withCounter, withCounter_withCounter, hcounter,
    Nat.add_mod_right]

/-- The first 64 keystream bytes are the block of the state (44_stream_loop.md R193). -/
theorem keystreamByte_of_lt (w : Words) {k : Nat} (h : k < 64) : keystreamByte w k = (block w)[k] := by
  simp only [keystreamByte, Nat.div_eq_of_lt h, Nat.mod_eq_of_lt h]
  simp

theorem pendingKeystream_gen {s : State} (hp : s.phase = .gen) (i : Nat) :
    s.pendingKeystream i = keystreamByte s.st (i - s.blockBase) := by
  simp only [State.pendingKeystream, hp]

theorem pendingKeystream_xor {s : State} (hp : s.phase = .xor) (i : Nat) :
    s.pendingKeystream i =
      if i < s.blockBase + 64 then s.ks[(i - s.blockBase) % 64]'(Nat.mod_lt _ (by decide))
      else keystreamByte s.st (i - s.blockBase - 64) := by
  simp only [State.pendingKeystream, hp]

theorem pendingKeystream_decode {s : State} (hp : s.phase = .decode) (i : Nat) :
    s.pendingKeystream i = keystreamByte s.st i := by
  simp only [State.pendingKeystream, hp]

theorem blockBase_of_loop {s : State} (hp : s.phase = .gen ∨ s.phase = .xor) :
    s.blockBase = s.cur.dcur - s.dstBase := by
  rcases hp with hp | hp <;> simp only [State.blockBase, hp]

theorem applied_gen {s : State} (hp : s.phase = .gen) : s.applied = s.blockBase := by
  simp only [State.applied, hp]

theorem applied_xor {s : State} (hp : s.phase = .xor) : s.applied = s.blockBase + s.cur.j := by
  simp only [State.applied, hp]

/-- The cursors of a sound loop stand at the current block in both ranges (44_stream_loop.md R195). -/
theorem LoopFacts.block_at {s : State} (h : LoopFacts s) (hp : s.phase = .gen ∨ s.phase = .xor) :
    s.cur.scur = s.srcBase + s.blockBase ∧ s.cur.dcur = s.dstBase + s.blockBase ∧
      s.blockBase + s.cur.rem = s.msgLen := by
  obtain ⟨-, -, -, -, -, -, hle, -, hsc, hdc⟩ := h
  rw [blockBase_of_loop hp]
  omega

/-- The promised byte depends only on the latches, on the source byte as the core sees it, and on its keystream byte. -/
theorem pendingByte_congr {s t : State} {i : Nat} (hl : t.lat = s.lat)
    (hs : t.sourceByte (s.srcBase + i) = s.sourceByte (s.srcBase + i))
    (hk : t.pendingKeystream i = s.pendingKeystream i) : t.pendingByte i = s.pendingByte i := by
  rw [State.pendingByte, State.pendingByte, hk, ← hs, State.srcBase, State.srcBase, hl]

@[simp] theorem xorStore_ks (s : State) (hj : s.cur.j < 64) : (s.xorStore hj).ks = s.ks :=
  State.coreStore_ks ..

/-- The write of an XOR step leaves the source bytes still to come: in place they come later, else the ranges are apart
(44_stream_loop.md R194, R196). -/
theorem sourceByte_xorStore {s : State} (hw : s.dmem.wf = true) (h : LoopFacts s) (hp : s.phase = .xor)
    (hj : s.cur.j < 64) {i : Nat} (hlo : s.applied < i) (hhi : i < s.msgLen) :
    (s.xorStore hj).sourceByte (s.srcBase + i) = s.sourceByte (s.srcBase + i) := by
  have hother : s.srcBase + i ≠ s.cur.dcur + s.cur.j := by
    obtain ⟨-, hdcur, -⟩ := h.block_at (.inr hp)
    have hapart := h.apart
    rw [applied_xor hp] at hlo
    omega
  exact sourceByte_congr (by rw [xorStore_race]) (read_coreStore_other hw _ hother)

/-- A core step of a sound APPLY keeps the promise of every byte still to come. -/
theorem CoreMove.pendingByte_eq {s t : State} (h : CoreMove s t) (hi : s.Inv) {i : Nat} (hlt : i < s.msgLen)
    (htr : t.applyRunning = true) (hti : t.applied ≤ i) : t.pendingByte i = s.pendingByte i := by
  obtain ⟨hw, -, -, hph, -⟩ := hi
  cases h with
  | idle hp => rfl
  | illegal | initKey | initNonce | initOk | blockNone | blockOk | applyEnd | xorEnd =>
    exact absurd htr Bool.false_ne_true
  | applyStart hp hd hv =>
    refine pendingByte_congr rfl rfl ?_
    rw [pendingKeystream_gen rfl, pendingKeystream_decode hp, blockBase_of_loop (.inl rfl)]
    exact congrArg _ (by simp [State.dstBase])
  | gen hp =>
    have hbase : s.genStep.blockBase = s.blockBase := by
      rw [blockBase_of_loop (.inl hp)]; rfl
    rw [applied_xor rfl, hbase] at hti
    refine pendingByte_congr rfl rfl ?_
    rw [pendingKeystream_xor rfl, pendingKeystream_gen hp, hbase]
    split
    · have hk : i - s.blockBase < 64 := by omega
      rw [keystreamByte_of_lt _ hk]
      simp only [State.genStep_ks, Nat.mod_eq_of_lt hk]
    · rw [State.genStep_st, keystreamByte_ctrInc]
      exact congrArg _ (by omega)
  | xorByte hp hj hs hd hn =>
    obtain ⟨-, -, hl, -, -⟩ := (phaseOk_xor hp).1 hph
    rw [applied_xor (by simpa using hp)] at hti
    have hbase : ({ s.xorStore hj with cur := { s.cur with j := s.cur.j + 1 } } : State).blockBase = s.blockBase := by
      rw [blockBase_of_loop (.inr hp), blockBase_of_loop (.inr (by simpa using hp))]
      simp [State.dstBase]
    rw [hbase] at hti
    dsimp only at hti
    refine pendingByte_congr (by simp) (sourceByte_xorStore hw hl hp hj (by rw [applied_xor hp]; omega) hlt) ?_
    rw [pendingKeystream_xor (by simpa using hp), pendingKeystream_xor hp, hbase]
    simp
  | xorBlock hp hj hs hd hn hr =>
    obtain ⟨-, -, hl, hmin, -⟩ := (phaseOk_xor hp).1 hph
    obtain ⟨-, hdcur, -⟩ := hl.block_at (.inr hp)
    have hfull : s.cur.n = 64 := by omega
    have hbase : ({ s.xorStore hj with cur := s.cur.nextBlock, phase := .gen } : State).blockBase =
        s.blockBase + 64 := by
      rw [blockBase_of_loop (.inl rfl)]
      simp only [State.dstBase, xorStore_lat, Cursors.nextBlock] at hdcur ⊢
      omega
    rw [applied_gen rfl, hbase] at hti
    refine pendingByte_congr (by simp) (sourceByte_xorStore hw hl hp hj (by rw [applied_xor hp]; omega) hlt) ?_
    rw [pendingKeystream_gen rfl, pendingKeystream_xor hp, hbase, if_neg (Nat.not_lt.2 hti), Nat.sub_sub]
    simp

/-- An XOR step of a sound APPLY writes the byte promised for its index, unless a race gave that byte to the host
(44_stream_loop.md R194). -/
theorem xorStore_writes_pendingByte {s : State} (hw : s.dmem.wf = true) (hl : LoopFacts s) (hp : s.phase = .xor)
    (hj : s.cur.j < 64) (hrace : s.dstBase + s.applied ∉ s.race.landed) :
    (s.xorStore hj).dmem.read (s.dstBase + s.applied) = s.pendingByte s.applied := by
  obtain ⟨hscur, hdcur, -⟩ := hl.block_at (.inr hp)
  have hdst : s.dstBase + s.applied = s.cur.dcur + s.cur.j := by rw [applied_xor hp]; omega
  have hsrc : s.srcBase + s.applied = s.cur.scur + s.cur.j := by rw [applied_xor hp]; omega
  have hk : s.pendingKeystream s.applied = s.ks[s.cur.j] := by
    have hlt : s.blockBase + s.cur.j < s.blockBase + 64 := by omega
    rw [pendingKeystream_xor hp, applied_xor hp, if_pos hlt]
    simp only [Nat.add_sub_cancel_left, Nat.mod_eq_of_lt hj]
  rw [State.pendingByte, hk, hsrc]
  rw [hdst] at hrace ⊢
  exact (read_coreStore_same hw _ _).trans (if_neg hrace)

theorem CoreMove.writes_pendingByte {s t : State} (h : CoreMove s t) (hi : s.Inv) (hp : s.phase = .xor)
    (hrace : s.dstBase + s.applied ∉ s.race.landed) :
    t.dmem.read (s.dstBase + s.applied) = s.pendingByte s.applied := by
  obtain ⟨hw, -, -, hph, -⟩ := hi
  obtain ⟨-, -, hl, -, -⟩ := (phaseOk_xor hp).1 hph
  cases h with
  | xorByte _ hj | xorBlock _ hj | xorEnd _ hj => exact xorStore_writes_pendingByte hw hl hp hj hrace
  | idle hp' | illegal hp' | initKey hp' | initNonce hp' | initOk hp' | blockNone hp' | blockOk hp' | applyEnd hp'
  | applyStart hp' | gen hp' => rw [hp] at hp'; cases hp'

/-- Settles O40, from what each core move does to the promised bytes. -/
theorem promisedByteIsTheByteWritten : Obligations.PromisedByteIsTheByteWritten := by
  intro s t hi _ h
  have hm : CoreMove s t := coreStep_move h
  exact ⟨fun i hlt htr hti => hm.pendingByte_eq hi hlt htr hti, hm.writes_pendingByte hi⟩

end Sys2Proof.Machine
end

section
/-! Command words: the encoder is the decoder's inverse, on words and on the bytes CMD holds (30_encoding.md R91, R93;
10_state.md R32). -/

namespace Sys2Proof.Machine

/-- The word of each row of the opcode table decodes to that row's command (30_encoding.md R93). -/
theorem decode_encode (i : Instr) : decode (encode i) = .ok i := by
  cases i with
  | init => decide
  | block => decide
  | apply => decide

/-- The four bytes CMD holds of a word, the lowest first, make up the word again (10_state.md R32). -/
theorem wordOfBytes_extract (w : Word) :
    wordOfBytes (w.extractLsb' 0 8) (w.extractLsb' 8 8) (w.extractLsb' 16 8) (w.extractLsb' 24 8) = w :=
  (le32_eq_append ..).symm.trans (le32_byteOf w)

/-- Decoding a word's bytes decodes the word and leaves the bytes after it, whether the word is legal or not. -/
theorem decodeBytes_bytesOfWord (w : Word) (rest : List Byte) :
    decodeBytes (bytesOfWord w ++ rest) = (decode w, rest) := by
  simp only [bytesOfWord, List.cons_append, List.nil_append, decodeBytes, wordOfBytes_extract]

/-- Settles O2: `eq_encode_of_decode` and `decode_encode` are the two directions on words; on bytes the word is read back
first. -/
theorem decodeAndEncodeAgree : Obligations.DecodeAndEncodeAgree :=
  ⟨fun _ i => ⟨eq_encode_of_decode, fun h => h ▸ decode_encode i⟩,
    fun i rest => by rw [decodeBytes_bytesOfWord, decode_encode]⟩

/-- Settles O1: words 1 to 3 are the commands' own, the other thirteen are evaluated. -/
theorem opcodeMapDecodes : Obligations.OpcodeMapDecodes :=
  ⟨decode_encode .init, decode_encode .block, decode_encode .apply, by decide, by decide⟩

end Sys2Proof.Machine
end

section
/-! Issuing a command and waiting for its end: the two host operations that look at BUSY (30_encoding.md R96, R99). -/

namespace Sys2Proof.Machine

theorem busy_of_idle {s : State} (h : s.phase = .idle) : s.busy = false := by simp [State.busy, h]

theorem busy_of_not_idle {s : State} (h : s.phase ≠ .idle) : s.busy = true := by simp [State.busy, h]

/-- A CMD write to an idle core is accepted, whatever the word (30_encoding.md R96). -/
theorem cmdWrite_idle {s : State} (h : s.phase = .idle) (w : Word) :
    runEvent (.regWrite 0x008 4 w) s = .next (s.accept w) := by
  have hw := regWrite_at s .cmd w
  rwa [State.writeReg, State.issue, busy_of_idle h] at hw

/-- A CMD write to a busy core only sets OVERRUN (60_exceptions.md R236). -/
theorem cmdWrite_busy {s : State} (h : s.phase ≠ .idle) (w : Word) :
    runEvent (.regWrite 0x008 4 w) s = .next { s with overrun := true } := by
  have hw := regWrite_at s .cmd w
  rwa [State.writeReg, State.issue, busy_of_not_idle h] at hw

/-- Latched key byte `i` is byte `i mod 4` of key register `i div 4` (10_state.md R43). -/
theorem latch_key (r : OperandRegs) (w : Word) (i : Fin 32) :
    (r.latch w).key[i] = r.key[i.val / 4].extractLsb' (8 * (i.val % 4)) 8 :=
  Vector.getElem_ofFn i.isLt

/-- Latched nonce byte `i` is byte `i mod 4` of nonce register `i div 4` (10_state.md R43). -/
theorem latch_nonce (r : OperandRegs) (w : Word) (i : Fin 12) :
    (r.latch w).nonce[i] = r.nonce[i.val / 4].extractLsb' (8 * (i.val % 4)) 8 :=
  Vector.getElem_ofFn i.isLt

/-- Settles O29, by BUSY; the latches of an accept are the copy of the operand registers. -/
theorem cmdWriteIsAcceptedOrOverruns : Obligations.CmdWriteIsAcceptedOrOverruns :=
  fun s w => ⟨fun hbusy => cmdWrite_busy hbusy w, fun hidle =>
    ⟨s.regs.latch w, cmdWrite_idle hidle w, rfl, rfl, rfl, rfl, rfl, rfl, rfl, latch_key s.regs w, latch_nonce s.regs w⟩⟩

/-- Settles O36, by BUSY: both branches record STATUS first. -/
theorem waitReadsStatusUntilIdle : Obligations.WaitReadsStatusUntilIdle := by
  refine fun s => ⟨fun hidle => ?_, fun hbusy => ?_⟩
  · rw [runEvent, hostWait, busy_of_idle hidle]
    rfl
  · rw [runEvent, hostWait, busy_of_not_idle hbusy]
    rfl

end Sys2Proof.Machine
end

section
/-! INIT: its three exits and the sixteen words it writes (41_state_initializer.md R120 to R124). -/

namespace Sys2Proof.Machine

/-- A wrong key length ends INIT before the nonce length is looked at (41_state_initializer.md R124). -/
theorem execInit_keySize {s : State} (hk : s.lat.keyLen ≠ 32) :
    execInit s = .next ({ s with valid := false }.complete .keySize) := by
  rw [execInit_eq, if_pos hk]

/-- A wrong nonce length ends INIT before a state word is written (41_state_initializer.md R124). -/
theorem execInit_nonceSize {s : State} (hk : s.lat.keyLen = 32) (hn : s.lat.nonceLen ≠ 12) :
    execInit s = .next ({ s with valid := false }.complete .nonceSize) := by
  rw [execInit_eq, if_neg (not_not.2 hk), if_pos hn]

theorem execInit_ok {s : State} (hk : s.lat.keyLen = 32) (hn : s.lat.nonceLen = 12) :
    execInit s = .next ({ s with st := initWords s.lat, valid := true }.complete .ok) := by
  rw [execInit_eq, if_neg (not_not.2 hk), if_neg (not_not.2 hn)]

/-- The packed ASCII string as four words (41_state_initializer.md R120; log 15). -/
theorem constWord_values :
    constWord 0 = 0x61707865 ∧ constWord 1 = 0x3320646E ∧ constWord 2 = 0x79622D32 ∧ constWord 3 = 0x6B206574 := by
  decide

/-- The key words stand at 4 to 11 (41_state_initializer.md R121). -/
theorem initWords_key (l : Latches) (k : Fin 8) :
    (initWords l)[4 + k.val] =
      l.key[4 * k.val + 3] ++ l.key[4 * k.val + 2] ++ l.key[4 * k.val + 1] ++ l.key[4 * k.val] := by
  have hword : (initWords l)[4 + k.val] = l.keyWord k := by fin_cases k <;> rfl
  rw [hword, Latches.keyWord, le32_eq_append]

/-- The nonce words stand at 13 to 15 (41_state_initializer.md R123). -/
theorem initWords_nonce (l : Latches) (k : Fin 3) :
    (initWords l)[13 + k.val] =
      l.nonce[4 * k.val + 3] ++ l.nonce[4 * k.val + 2] ++ l.nonce[4 * k.val + 1] ++ l.nonce[4 * k.val] := by
  have hword : (initWords l)[13 + k.val] = l.nonceWord k := by fin_cases k <;> rfl
  rw [hword, Latches.nonceWord, le32_eq_append]

/-- Settles O5: the exit is chosen by the two lengths, and the state written is `initWords` of the latches. -/
theorem initBuildsTheCipherState : Obligations.InitBuildsTheCipherState := by
  intro s
  refine ⟨fun hk => execInit_keySize hk, fun hk hn => execInit_nonceSize hk hn, fun hk hn => ?_⟩
  obtain ⟨h0, h1, h2, h3⟩ := constWord_values
  exact ⟨initWords s.lat, execInit_ok hk hn, h0, h1, h2, h3, initWords_key s.lat, rfl, initWords_nonce s.lat⟩

end Sys2Proof.Machine
end

section
/-! The quarter round: its words, its frame, its inverse, the order inside a round, and the eight tuples
(42_quarter_round.md R140 to R145). -/

namespace Sys2Proof.Machine

/-! ### The words a quarter round writes, and the words it leaves -/

/-- Settles O6: each of the four steps is read at each slot by `arxStep_getElem`, the slots being distinct. -/
theorem quarterRoundComputesTheFourSteps : Obligations.QuarterRoundComputesTheFourSteps := by
  intro t w
  obtain ⟨hab, hac, had, hbc, hbd, hcd⟩ := qr_distinct t
  simp only [quarterRound, arxStep_getElem _ _ had, arxStep_getElem _ _ hbc.symm, rotl32_eq_rotateLeft, reduceIte,
    hab, hab.symm, hac, hac.symm, had, had.symm, hbc, hbc.symm, hbd, hbd.symm, hcd, hcd.symm, and_self]

/-- Settles O7: each of the four steps writes slots of the tuple only. -/
theorem quarterRoundLeavesOtherWords : Obligations.QuarterRoundLeavesOtherWords := by
  intro t w i ha hb hc hd
  obtain ⟨-, -, had, hbc, -, -⟩ := qr_distinct t
  simp only [quarterRound, arxStep_getElem _ _ had, arxStep_getElem _ _ hbc.symm, reduceIte, ha, hb, hc, hd]

/-! ### The inverse -/

/-- Rotating right undoes rotating left by the same amount. -/
theorem rotateRight_rotateLeft {k : Nat} (x : BitVec k) (n : Nat) : (x.rotateLeft n).rotateRight n = x := by
  ext i hi
  have hn : n % k < k := Nat.mod_lt n (by omega)
  rw [BitVec.getElem_rotateRight]
  split
  · rw [BitVec.getElem_rotateLeft, dif_neg (by omega)]
    congr 1
    omega
  · rw [BitVec.getElem_rotateLeft, dif_pos (by omega)]
    congr 1
    omega

/-- The xor and the rotation of a step are undone by the rotation back and the same xor (42_quarter_round.md R145). -/
theorem rotateRight_xor_undo (z x : Word) (n : Nat) : ((z ^^^ x).rotateLeft n).rotateRight n ^^^ x = z := by
  rw [rotateRight_rotateLeft, BitVec.xor_assoc, BitVec.xor_self, BitVec.xor_zero]

/-- Settles O8: after O6's values are put in, each inverted step cancels against its own step. -/
theorem quarterRoundIsInvertible : Obligations.QuarterRoundIsInvertible := by
  intro t w
  obtain ⟨ha, hb, hc, hd⟩ := quarterRoundComputesTheFourSteps t w
  simp only [ha, hb, hc, hd, rotateRight_xor_undo, BitVec.add_sub_cancel, and_self]

/-! ### The order inside a round -/

/-- The four slots of a tuple (42_quarter_round.md R141). -/
def qrSlots (t : QRTuple) : List (Fin 16) := [qrA t, qrB t, qrC t, qrD t]

/-- A word outside the slots is kept (42_quarter_round.md R142). -/
theorem quarterRound_of_notMem_slots {t : QRTuple} {i : Fin 16} (hi : i ∉ qrSlots t) (w : Words) :
    (quarterRound t w)[i] = w[i] := by
  simp only [qrSlots, List.mem_cons, List.not_mem_nil, or_false, not_or] at hi
  obtain ⟨ha, hb, hc, hd⟩ := hi
  exact quarterRoundLeavesOtherWords t w i ha hb hc hd

/-- A quarter round reads its slots only: arrays that agree there agree there afterwards (42_quarter_round.md R142). -/
theorem quarterRound_congr_slots {t : QRTuple} {v w : Words} (h : ∀ i ∈ qrSlots t, v[i] = w[i]) :
    ∀ i ∈ qrSlots t, (quarterRound t v)[i] = (quarterRound t w)[i] := by
  obtain ⟨va, vb, vc, vd⟩ := quarterRoundComputesTheFourSteps t v
  obtain ⟨wa, wb, wc, wd⟩ := quarterRoundComputesTheFourSteps t w
  simp only [qrSlots, List.forall_mem_cons, List.not_mem_nil, false_imp_iff, implies_true, and_true] at h ⊢
  obtain ⟨ha, hb, hc, hd⟩ := h
  simp only [va, vb, vc, vd, wa, wb, wc, wd, ha, hb, hc, hd, and_self]

/-- At its own slots a quarter round gives the same words whether one on disjoint slots runs before it or after it. -/
theorem quarterRound_on_slots_of_disjoint {t u : QRTuple} (h : (qrSlots t).Disjoint (qrSlots u)) (w : Words)
    {i : Fin 16} (hi : i ∈ qrSlots t) :
    (quarterRound t (quarterRound u w))[i] = (quarterRound u (quarterRound t w))[i] := by
  have hread := quarterRound_congr_slots (fun j hj => quarterRound_of_notMem_slots (h hj) w) i hi
  rw [hread, quarterRound_of_notMem_slots (h hi)]

/-- Two word arrays are equal when they agree at each of the sixteen slots. -/
theorem words_ext {v w : Words} (h : ∀ i : Fin 16, v[i] = w[i]) : v = w :=
  Vector.ext fun k hk => h ⟨k, hk⟩

/-- Quarter rounds on disjoint slots commute (42_quarter_round.md R143). -/
theorem quarterRound_comm {t u : QRTuple} (h : (qrSlots t).Disjoint (qrSlots u)) (w : Words) :
    quarterRound t (quarterRound u w) = quarterRound u (quarterRound t w) := by
  refine words_ext fun i => ?_
  by_cases ht : i ∈ qrSlots t
  · exact quarterRound_on_slots_of_disjoint h w ht
  · by_cases hu : i ∈ qrSlots u
    · exact (quarterRound_on_slots_of_disjoint h.symm w hu).symm
    · simp only [quarterRound_of_notMem_slots ht, quarterRound_of_notMem_slots hu]

/-- Over tuples with pairwise disjoint slots the order of the quarter rounds does not matter. -/
theorem foldl_quarterRound_perm {l r : List QRTuple} (hlr : l.Perm r)
    (hr : ∀ t ∈ r, ∀ u ∈ r, t = u ∨ (qrSlots t).Disjoint (qrSlots u)) (w : Words) :
    l.foldl (fun v t => quarterRound t v) w = r.foldl (fun v t => quarterRound t v) w := by
  refine hlr.foldl_eq' (fun t ht u hu v => ?_) w
  obtain rfl | hdisj := hr t (hlr.mem_iff.1 ht) u (hlr.mem_iff.1 hu)
  · rfl
  · exact (quarterRound_comm hdisj v).symm

/-- The four columns touch pairwise disjoint slots (42_quarter_round.md R143). -/
theorem columns_slots_disjoint :
    ∀ t ∈ [QRTuple.col0, .col1, .col2, .col3], ∀ u ∈ [QRTuple.col0, .col1, .col2, .col3],
      t = u ∨ (qrSlots t).Disjoint (qrSlots u) := by
  unfold List.Disjoint
  decide

/-- The four diagonals touch pairwise disjoint slots (42_quarter_round.md R143). -/
theorem diagonals_slots_disjoint :
    ∀ t ∈ [QRTuple.diag0, .diag1, .diag2, .diag3], ∀ u ∈ [QRTuple.diag0, .diag1, .diag2, .diag3],
      t = u ∨ (qrSlots t).Disjoint (qrSlots u) := by
  unfold List.Disjoint
  decide

/-- Settles O9: the columns have pairwise disjoint slots, and so have the diagonals. -/
theorem roundOrderDoesNotMatter : Obligations.RoundOrderDoesNotMatter :=
  fun w _ => ⟨fun h => foldl_quarterRound_perm h columns_slots_disjoint w,
    fun h => foldl_quarterRound_perm h diagonals_slots_disjoint w⟩

/-! ### The eight tuples -/

/-- A tuple's own indices are among those the quarter round has a meaning for (42_quarter_round.md R141). -/
theorem qrIndicesWf_of_tuple (t : QRTuple) : qrIndicesWf (qrA t).val (qrB t).val (qrC t).val (qrD t).val = true := by
  cases t <;> rfl

/-- A tuple is found again from its own indices. -/
theorem qrTuple?_of_tuple (t : QRTuple) : qrTuple? (qrA t).val (qrB t).val (qrC t).val (qrD t).val = some t := by
  cases t <;> rfl

/-- A tuple that is found has the indices it was looked for by. -/
theorem indices_of_qrTuple?_eq_some {a b c d : Nat} {t : QRTuple} (h : qrTuple? a b c d = some t) :
    (qrA t).val = a ∧ (qrB t).val = b ∧ (qrC t).val = c ∧ (qrD t).val = d := by
  simpa [and_assoc] using List.find?_some h

/-- Indices that are none of the eight tuples' name no tuple (42_quarter_round.md R144). -/
theorem qrTuple?_eq_none {a b c d : Nat} (h : qrIndicesWf a b c d = false) : qrTuple? a b c d = none := by
  cases hq : qrTuple? a b c d with
  | none => rfl
  | some t =>
    obtain ⟨rfl, rfl, rfl, rfl⟩ := indices_of_qrTuple?_eq_some hq
    exact absurd (qrIndicesWf_of_tuple t) (by simp [h])

/-- Settles O10, by the tuple the four indices name. -/
theorem quarterRoundOutsideTheTuplesIsRefused : Obligations.QuarterRoundOutsideTheTuplesIsRefused := by
  refine ⟨fun a b c d w h => ?_, fun t w => ?_⟩
  · rw [quarterRound?, qrTuple?_eq_none h, Option.map_none]
  · rw [quarterRound?, qrTuple?_of_tuple, Option.map_some]

end Sys2Proof.Machine
end

section
/-! The block function and the BLOCK command: the rounds of the permutation, the bytes of a block, and the two exits
(43_block_function.md R160 to R169). -/

namespace Sys2Proof.Machine

/-! ### The permutation as a list of quarter rounds -/

/-- The quarter rounds of one double round, in their order (43_block_function.md R160 to R162). -/
def doubleRoundTuples : List QRTuple := [.col0, .col1, .col2, .col3, .diag0, .diag1, .diag2, .diag3]

theorem doubleRound_eq_foldl (w : Words) : doubleRound w = doubleRoundTuples.foldl (fun v t => quarterRound t v) w := rfl

theorem doubleRounds_eq_foldl (n : Nat) (w : Words) :
    doubleRounds n w = (List.replicate n doubleRoundTuples).flatten.foldl (fun v t => quarterRound t v) w := by
  induction n generalizing w with
  | zero => rfl
  | succ n ih =>
    rw [doubleRounds, ih, List.replicate_succ, List.flatten_cons, List.foldl_append, ← doubleRound_eq_foldl]

/-- Settles O11: `doubleRounds_eq_foldl` for ten double rounds. -/
theorem permutationIsEightyQuarterRounds : Obligations.PermutationIsEightyQuarterRounds :=
  fun w => doubleRounds_eq_foldl 10 w

/-! ### The words and the bytes of a block -/

/-- Feed-forward, word by word (43_block_function.md R165). -/
theorem blockWords_getElem (s : Words) {i : Nat} (hi : i < 16) : (blockWords s)[i] = (permute s)[i] + s[i] :=
  Vector.getElem_zipWith hi

/-- Little-endian serialization, byte by byte (43_block_function.md R166). -/
theorem serialize_getElem (w : Words) (j : Fin 64) : (serialize w)[j] = byteOf w[j.val / 4] (j.val % 4) :=
  Vector.getElem_ofFn j.isLt

/-- Settles O12: a byte of the serialization, taken from a fed-forward word. -/
theorem keystreamBlockBytes : Obligations.KeystreamBlockBytes := by
  intro s j
  rw [block, serialize_getElem, blockWords_getElem, byteOf]

/-! ### The BLOCK command -/

/-- Without a state BLOCK completes with NOT_INIT (60_exceptions.md R238). -/
theorem execBlock_notInit {s : State} (hv : s.valid = false) : execBlock s = .next (s.complete .notInit) :=
  if_pos hv

/-- With a state BLOCK runs the block function once and completes (43_block_function.md R168). -/
theorem execBlock_ok {s : State} (hv : s.valid = true) : execBlock s = .next (s.runBlock.complete .ok) :=
  if_neg (ne_false_of_eq_true hv)

/-- Settles O13, by VALID; the working copy left behind is the fed-forward words. -/
theorem blockFillsTheKeystreamBuffer : Obligations.BlockFillsTheKeystreamBuffer :=
  fun s => ⟨fun hv => execBlock_notInit hv, fun hv => ⟨blockWords s.st, execBlock_ok hv⟩⟩

end Sys2Proof.Machine
end

section
/-! The parts of APPLY one by one: the counter increment, the validation, a GEN step and an XOR step
(44_stream_loop.md R190 to R198). -/

namespace Sys2Proof.Machine

/-! ### The counter increment -/

/-- Word 12 counts modulo 2^32 (44_stream_loop.md R192). -/
theorem ctrInc_getElem_12 (w : Words) : (ctrInc w)[12] = w[12] + 1 := by
  rw [ctrInc_eq_withCounter, withCounter_getElem, if_neg (by decide), if_pos rfl]
  exact (counter_succ_words w).1

/-- Word 13 takes the carry of word 12 (44_stream_loop.md R192). -/
theorem ctrInc_getElem_13 (w : Words) : (ctrInc w)[13] = if w[12] + 1 = 0 then w[13] + 1 else w[13] := by
  rw [ctrInc_eq_withCounter, withCounter_getElem, if_pos rfl]
  exact (counter_succ_words w).2

/-- Settles O14: word 12 wraps exactly at its largest value, and the pair is the 64-bit counter. -/
theorem counterIncrementCarriesIntoWord13 : Obligations.CounterIncrementCarriesIntoWord13 := by
  intro w
  have hwrap : w[12] + 1 = 0 ↔ w[12] = 0xFFFFFFFF := by bv_omega
  refine ⟨fun h => ⟨?_, ?_⟩, fun h => ⟨ctrInc_getElem_12 w, ?_⟩, ?_, fun i h12 h13 => ctrInc_getElem_other w h12 h13⟩
  · rw [ctrInc_getElem_12, hwrap.2 h]
  · rw [ctrInc_getElem_13, if_pos (hwrap.2 h)]
  · rw [ctrInc_getElem_13, if_neg (mt hwrap.1 h)]
  · change counter (ctrInc w) = counter w + 1
    rw [ctrInc_eq_withCounter, counter_withCounter]

/-! ### The validation -/

theorem applyVerdict_notInit {s : State} (hv : s.valid = false) : s.applyVerdict = some .notInit := by
  rw [applyVerdict_eq, if_pos hv]

/-- An empty message is OK whatever SRC and DST hold (44_stream_loop.md R198). -/
theorem applyVerdict_empty {s : State} (hv : s.valid = true) (hlen : s.msgLen = 0) : s.applyVerdict = some .ok := by
  rw [applyVerdict_eq, if_neg (ne_false_of_eq_true hv), if_pos hlen]

theorem applyVerdict_capacity {s : State} (hv : s.valid = true) (hlen : 0 < s.msgLen)
    (hout : s.params.dmemSize < s.srcBase + s.msgLen ∨ s.params.dmemSize < s.dstBase + s.msgLen) :
    s.applyVerdict = some .capacity := by
  rw [applyVerdict_eq, if_neg (ne_false_of_eq_true hv), if_neg hlen.ne', if_pos (by omega)]

theorem applyVerdict_overlap {s : State} (hv : s.valid = true) (hlen : 0 < s.msgLen)
    (hsrc : s.srcBase + s.msgLen ≤ s.params.dmemSize) (hdst : s.dstBase + s.msgLen ≤ s.params.dmemSize)
    (hover : s.srcBase ≠ s.dstBase ∧ s.srcBase < s.dstBase + s.msgLen ∧ s.dstBase < s.srcBase + s.msgLen) :
    s.applyVerdict = some .overlap := by
  rw [applyVerdict_eq, if_neg (ne_false_of_eq_true hv), if_neg hlen.ne', if_neg (not_not.2 ⟨hsrc, hdst⟩), if_pos hover]

/-- A validation that gives a code ends APPLY with it (44_stream_loop.md R191). -/
theorem exec_apply_ends {s : State} (hp : s.phase = .decode) {code : ErrCode} (hv : s.applyVerdict = some code) :
    exec .apply s = .next (s.complete code) := by
  simp only [exec, execApply, hp, State.applyValidate, hv]

/-- A validation that passes loads the cursors and goes on to GEN (44_stream_loop.md R191). -/
theorem exec_apply_starts {s : State} (hp : s.phase = .decode) (hv : s.applyVerdict = none) :
    exec .apply s =
      .next { s with cur := { s.cur with rem := s.msgLen, scur := s.srcBase, dcur := s.dstBase }, phase := .gen } := by
  simp only [exec, execApply, hp, State.applyValidate, hv]

/-- Settles O15: each clause is one branch of the chain of checks. -/
theorem applyValidatesInOrder : Obligations.ApplyValidatesInOrder := fun _ hp =>
  ⟨fun hv => exec_apply_ends hp (applyVerdict_notInit hv),
    fun hv hlen => exec_apply_ends hp (applyVerdict_empty hv hlen),
    fun hv hlen hout => exec_apply_ends hp (applyVerdict_capacity hv hlen hout),
    fun hv hlen hsrc hdst hover => exec_apply_ends hp (applyVerdict_overlap hv hlen hsrc hdst hover),
    fun hv hlen hsrc hdst hapart =>
      exec_apply_starts hp ((applyVerdict_none_iff _).2 ⟨hv, hlen, hsrc, hdst, hapart⟩)⟩

/-! ### GEN and XOR -/

/-- Settles O16; the working copy left behind is the fed-forward words. -/
theorem genMakesOneBlock : Obligations.GenMakesOneBlock := by
  intro s hp
  refine ⟨blockWords s.st, ?_⟩
  simp only [exec, execApply, hp]
  rfl

/-- In XOR APPLY's step is the core's. -/
theorem exec_apply_xor {s : State} (hp : s.phase = .xor) : exec .apply s = coreStep s := by
  simp only [coreStep, hp]

/-- The write of an XOR step touches DMEM only (44_stream_loop.md R194). -/
theorem xorStore_frame (s : State) (hj : s.cur.j < 64) : s.xorStore hj = { s with dmem := (s.xorStore hj).dmem } := by
  unfold State.xorStore State.coreStore
  split <;> rfl

/-- An XOR step inside DMEM answers, and what it does to DMEM is its write, whichever way it ends. -/
theorem exists_xor_move {s : State} (hp : s.phase = .xor) (hj : s.cur.j < 64)
    (hs : s.cur.scur + s.cur.j < s.params.dmemSize) (hd : s.cur.dcur + s.cur.j < s.params.dmemSize) :
    ∃ t, CoreMove s t ∧ t.dmem = (s.xorStore hj).dmem := by
  by_cases hn : s.cur.j + 1 = s.cur.n
  · by_cases hr : s.cur.rem - s.cur.n = 0
    · exact ⟨_, .xorEnd hp hj hs hd hn hr, rfl⟩
    · exact ⟨_, .xorBlock hp hj hs hd hn hr, rfl⟩
  · exact ⟨_, .xorByte hp hj hs hd hn, rfl⟩

/-- Settles O17, from the core's write of one byte. -/
theorem xorWritesOneByte : Obligations.XorWritesOneByte := by
  intro s hj hp hw hs hd
  obtain ⟨t, hm, hdmem⟩ := exists_xor_move hp hj hs hd
  refine ⟨t, (exec_apply_xor hp).trans hm.coreStep_eq, ?_, fun hrace => sourceByte_of_not_fetched ?_, fun a ha => ?_⟩
  · rw [hdmem]; exact read_coreStore_same hw _ _
  · rw [hrace.1]; rfl
  · rw [hdmem]; exact read_coreStore_other hw _ ha

/-- Settles O18: the index is checked first, then the source address, then the destination address. -/
theorem xorStopsWhereNoByteExists : Obligations.XorStopsWhereNoByteExists := by
  intro s hp
  have hexec : exec .apply s = s.xorStep := by simp only [exec, execApply, hp]
  rw [hexec]
  refine ⟨fun hj => ?_, fun hj hs => ?_, fun hj hs hd => ?_⟩
  · exact dif_neg (Nat.not_lt.2 hj)
  · exact (dif_pos hj).trans (if_pos hs)
  · exact (dif_pos hj).trans ((if_neg (Nat.not_le.2 hs)).trans (if_pos hd))

/-- Settles O19: the three ends are the three core moves of XOR. -/
theorem xorMovesTheCursors : Obligations.XorMovesTheCursors := by
  intro s t hp h
  rw [exec_apply_xor hp] at h
  cases coreStep_move h with
  | xorByte _ hj hs hd hn =>
    refine ⟨fun _ => ?_, fun he => absurd he hn, fun he => absurd he hn⟩
    rw [xorStore_frame s hj]
  | xorBlock _ hj hs hd hn hr =>
    refine ⟨fun hne => absurd hn hne, fun _ _ => ?_, fun _ he => absurd (by omega) hr⟩
    rw [xorStore_frame s hj, Cursors.nextBlock, hn]
  | xorEnd _ hj hs hd hn hr =>
    refine ⟨fun hne => absurd hn hne, fun _ hlt => absurd hr (by omega), fun _ _ => ?_⟩
    rw [xorStore_frame s hj, Cursors.nextBlock, hn, hr]
    rfl
  | idle hp' | illegal hp' | initKey hp' | initNonce hp' | initOk hp' | blockNone hp' | blockOk hp' | applyEnd hp'
  | applyStart hp' | gen hp' => rw [hp] at hp'; cases hp'

/-- Settles O51: a sound core always has its move. -/
theorem soundCoreStepAnswers : Obligations.SoundCoreStepAnswers := by
  intro s hi
  obtain ⟨t, hm⟩ := exists_coreMove hi
  exact ⟨t, hm.coreStep_eq⟩

end Sys2Proof.Machine
end

section
/-! The state words a number of blocks on: the counter runs ahead, the other words stay (44_stream_loop.md R192, R199). -/

namespace Sys2Proof.Machine

/-- The state words with the 64-bit counter `k` blocks on (44_stream_loop.md R199). -/
def blocksOn (w : Words) (k : Nat) : Words := withCounter w (counter w + BitVec.ofNat 64 k)

@[simp] theorem counter_blocksOn (w : Words) (k : Nat) : counter (blocksOn w k) = counter w + BitVec.ofNat 64 k :=
  counter_withCounter w _

@[simp] theorem blocksOn_zero (w : Words) : blocksOn w 0 = w := by
  rw [blocksOn, BitVec.add_zero, withCounter_counter]

@[simp] theorem blocksOn_blocksOn (w : Words) (k l : Nat) : blocksOn (blocksOn w k) l = blocksOn w (k + l) := by
  rw [blocksOn, counter_blocksOn, BitVec.add_assoc, ← BitVec.ofNat_add, blocksOn, withCounter_withCounter, blocksOn]

/-- CtrInc goes one block on (44_stream_loop.md R192). -/
theorem ctrInc_eq_blocksOn (w : Words) : ctrInc w = blocksOn w 1 := ctrInc_eq_withCounter w

theorem blocksOn_getElem_other (w : Words) (k : Nat) {i : Fin 16} (h12 : i ≠ 12) (h13 : i ≠ 13) :
    (blocksOn w k)[i] = w[i] := by
  have h12' : i.val ≠ 12 := fun h => h12 (Fin.ext h)
  have h13' : i.val ≠ 13 := fun h => h13 (Fin.ext h)
  rw [blocksOn, Fin.getElem_fin, withCounter_getElem, if_neg h13', if_neg h12', Fin.getElem_fin]

/-- Byte `j` of block `b` is keystream byte 64 b + j (44_stream_loop.md R199). -/
theorem block_blocksOn_getElem (w : Words) (b : Nat) {j : Nat} (hj : j < 64) :
    (block (blocksOn w b))[j] = keystreamByte w (64 * b + j) := by
  have hdiv : (64 * b + j) / 64 = b := by omega
  have hmod : (64 * b + j) % 64 = j := by omega
  simp only [keystreamByte, hdiv, hmod, blocksOn]

/-- The keystream `b` blocks on is the keystream without its first `b` blocks (44_stream_loop.md R202). -/
theorem keystreamByte_blocksOn (w : Words) (b k : Nat) :
    keystreamByte (blocksOn w b) k = keystreamByte w (64 * b + k) := by
  have hk : keystreamByte (blocksOn w b) k = (block (blocksOn (blocksOn w b) (k / 64)))[k % 64] := rfl
  rw [hk, blocksOn_blocksOn, block_blocksOn_getElem w _ (Nat.mod_lt k (by decide))]
  exact congrArg _ (by omega)

end Sys2Proof.Machine
end

section
/-! An undisturbed APPLY followed from its accept to its end: what it has done at each stage, and that each core step
leads from one stage to the next (44_stream_loop.md R191 to R195). -/

namespace Sys2Proof.Machine

/-- The byte APPLY writes for message byte `i` when nothing disturbs it (44_stream_loop.md R199). -/
def State.outputByte (s : State) (i : Nat) : Byte := s.dmem.read (s.srcBase + i) ^^^ keystreamByte s.st i

/-- What an undisturbed APPLY accepted in `s` has done by `u`: `g` blocks are generated, the first `i` bytes of the
message written, and all else is as it was but the cursors, the keystream buffer and STATUS. -/
structure Applied (s : State) (g i : Nat) (u : State) : Prop where
  frame : CoreFrame s u
  valid : u.valid = s.valid
  raceFree : u.raceFree
  wf : u.dmem.wf = true
  st : u.st = blocksOn s.st g
  written : ∀ k, k < i → u.dmem.read (s.dstBase + k) = s.outputByte k
  others : ∀ a, (a < s.dstBase ∨ s.dstBase + i ≤ a) → u.dmem.read a = s.dmem.read a

theorem Applied.refl {s : State} (hr : s.raceFree) (hw : s.dmem.wf = true) : Applied s 0 0 s :=
  ⟨⟨rfl, rfl, rfl, rfl, rfl, rfl, rfl, rfl⟩, rfl, hr, hw, (blocksOn_zero s.st).symm,
    fun _ hk => absurd hk (Nat.not_lt_zero _), fun _ _ => rfl⟩

theorem CoreFrame.trans {s u v : State} (h : CoreFrame s u) (k : CoreFrame u v) : CoreFrame s v :=
  ⟨k.regs.trans h.regs, k.irqEn.trans h.irqEn, k.overrun.trans h.overrun, k.lat.trans h.lat, k.params.trans h.params,
    k.inputs.trans h.inputs, k.reads.trans h.reads, k.draws.trans h.draws⟩

/-- Cursors and phase are not part of what has been done. -/
theorem Applied.with_control {s u : State} {g i : Nat} (h : Applied s g i u) (c : Cursors) (p : Phase) :
    Applied s g i { u with cur := c, phase := p } :=
  ⟨h.frame.trans (by constructor <;> rfl), h.valid, h.raceFree, h.wf, h.st, h.written, h.others⟩

theorem Applied.complete {s u : State} {g i : Nat} (h : Applied s g i u) (code : ErrCode) :
    Applied s g i (u.complete code) :=
  ⟨h.frame.trans (by constructor <;> rfl), h.valid, ⟨rfl, rfl⟩, h.wf, h.st, h.written, h.others⟩

/-- GEN generates one more block (44_stream_loop.md R193). -/
theorem Applied.genStep {s u : State} {g i : Nat} (h : Applied s g i u) : Applied s (g + 1) i u.genStep := by
  refine ⟨h.frame.trans (by constructor <;> rfl), h.valid, h.raceFree, h.wf, ?_, h.written, h.others⟩
  rw [State.genStep_st, h.st, ctrInc_eq_blocksOn, blocksOn_blocksOn]

/-- The next source byte is still the one DMEM held at the accept: in place it is written later, else the ranges are
apart (44_stream_loop.md R196). -/
theorem Applied.sourceByte {s u : State} {g i : Nat} (h : Applied s g i u) (hs : s.applyReady) (hi : i < s.msgLen) :
    u.sourceByte (s.srcBase + i) = s.dmem.read (s.srcBase + i) := by
  obtain ⟨-, -, -, -, -, -, hapart, -, -, -⟩ := hs
  obtain ⟨hfetched, -⟩ := h.raceFree
  have hnone : u.race.fetched.lookup (s.srcBase + i) = none := by rw [hfetched]; rfl
  rw [sourceByte_of_not_fetched hnone]
  exact h.others _ (by omega)

/-- The cursors stand at block `b` of the message (44_stream_loop.md R195). -/
structure Cursors.AtBlock (c : Cursors) (s : State) (b : Nat) : Prop where
  more : 64 * b < s.msgLen
  rem : c.rem = s.msgLen - 64 * b
  scur : c.scur = s.srcBase + 64 * b
  dcur : c.dcur = s.dstBase + 64 * b

/-- The write of an XOR step is the next message byte's (44_stream_loop.md R194). -/
theorem Applied.xorStore {s u : State} {g b : Nat} (h : Applied s g (64 * b + u.cur.j) u) (hs : s.applyReady)
    (hc : u.cur.AtBlock s b) (hks : u.ks = block (blocksOn s.st b)) (hj : u.cur.j < 64)
    (hi : 64 * b + u.cur.j < s.msgLen) : Applied s g (64 * b + u.cur.j + 1) (u.xorStore hj) := by
  have hsrc : u.cur.scur + u.cur.j = s.srcBase + (64 * b + u.cur.j) := by rw [hc.scur, Nat.add_assoc]
  have hdst : u.cur.dcur + u.cur.j = s.dstBase + (64 * b + u.cur.j) := by rw [hc.dcur, Nat.add_assoc]
  have hout : u.sourceByte (u.cur.scur + u.cur.j) ^^^ u.ks[u.cur.j] = s.outputByte (64 * b + u.cur.j) := by
    rw [hsrc, h.sourceByte hs hi, State.outputByte]
    simp only [hks, block_blocksOn_getElem]
  have hstore : u.xorStore hj = u.coreStore (s.dstBase + (64 * b + u.cur.j)) (s.outputByte (64 * b + u.cur.j)) := by
    rw [State.xorStore, hdst, hout]
  have hsame : (u.xorStore hj).dmem.read (s.dstBase + (64 * b + u.cur.j)) = s.outputByte (64 * b + u.cur.j) := by
    rw [hstore, read_coreStore_same h.wf, h.raceFree.2, if_neg List.not_mem_nil]
  have hother (a : Nat) (ha : a ≠ s.dstBase + (64 * b + u.cur.j)) :
      (u.xorStore hj).dmem.read a = u.dmem.read a := by
    rw [hstore, read_coreStore_other h.wf _ ha]
  rw [xorStore_frame u hj]
  refine ⟨h.frame.trans (by constructor <;> rfl), h.valid, h.raceFree, xorStore_wf h.wf hj, h.st, fun k hk => ?_,
    fun a ha => (hother a (by omega)).trans (h.others a (by omega))⟩
  obtain rfl | hlt := Nat.eq_or_lt_of_le (Nat.le_of_lt_succ hk)
  · exact hsame
  · exact (hother _ (by omega)).trans (h.written k hlt)

/-- The stages of an undisturbed APPLY accepted in `s`, with the core steps left: one per block still to generate and one
per byte still to write (70_reset_and_hazards.md R274). -/
inductive ApplyStage (s : State) (k : Nat) : State → Prop where
  | decode (hk : k = applySteps s.msgLen) : ApplyStage s k s
  | gen {u : State} {b : Nat} (h : Applied s b (64 * b) u) (hp : u.phase = .gen) (hc : u.cur.AtBlock s b)
      (hk : k = ((s.msgLen + 63) / 64 - b) + (s.msgLen - 64 * b)) : ApplyStage s k u
  | xor {u : State} {b : Nat} (h : Applied s (b + 1) (64 * b + u.cur.j) u) (hp : u.phase = .xor)
      (hc : u.cur.AtBlock s b) (hn : u.cur.n = min u.cur.rem 64) (hj : u.cur.j < u.cur.n)
      (hks : u.ks = block (blocksOn s.st b))
      (hk : k = ((s.msgLen + 63) / 64 - (b + 1)) + (s.msgLen - (64 * b + u.cur.j))) : ApplyStage s k u
  | finished {u : State} (h : Applied s ((s.msgLen + 63) / 64) s.msgLen u) (hp : u.phase = .idle)
      (hdone : u.done = true) (herr : u.err = .ok) (hk : k = 0) : ApplyStage s k u

/-- The validation of a ready APPLY passes (44_stream_loop.md R191). -/
theorem applyStart_of_ready {s : State} (hs : s.applyReady) :
    CoreMove s
      { s with cur := { s.cur with rem := s.msgLen, scur := s.srcBase, dcur := s.dstBase }, phase := .gen } := by
  obtain ⟨hp, hcmd, hv, hpos, hsrc, hdst, hapart, -, -, -⟩ := hs
  have hd : decode s.lat.cmd = .ok .apply := hcmd ▸ decode_encode .apply
  exact .applyStart hp hd ((applyVerdict_none_iff s).2 ⟨hv, hpos, hsrc, hdst, hapart⟩)

/-- From an XOR stage the byte is written, and the loop goes on inside the block, to the next block, or ends
(44_stream_loop.md R195). -/
theorem ApplyStage.move_xor {s u : State} {k b : Nat} (hs : s.applyReady) (h : Applied s (b + 1) (64 * b + u.cur.j) u)
    (hp : u.phase = .xor) (hc : u.cur.AtBlock s b) (hn : u.cur.n = min u.cur.rem 64) (hj : u.cur.j < u.cur.n)
    (hks : u.ks = block (blocksOn s.st b))
    (hk : k + 1 = ((s.msgLen + 63) / 64 - (b + 1)) + (s.msgLen - (64 * b + u.cur.j))) :
    ∃ v, CoreMove u v ∧ ApplyStage s k v := by
  obtain ⟨hmore, hrem, hscur, hdcur⟩ := hc
  have ⟨_, _, _, _, hsrc, hdst, _⟩ := hs
  have hparams := h.frame.params
  have hj64 : u.cur.j < 64 := by omega
  have hs' : u.cur.scur + u.cur.j < u.params.dmemSize := by rw [hparams]; omega
  have hd' : u.cur.dcur + u.cur.j < u.params.dmemSize := by rw [hparams]; omega
  have hstored := h.xorStore hs ⟨hmore, hrem, hscur, hdcur⟩ hks hj64 (by omega)
  by_cases hlast : u.cur.j + 1 = u.cur.n
  · by_cases hend : u.cur.rem - u.cur.n = 0
    · have hblocks : b + 1 = (s.msgLen + 63) / 64 := by omega
      have hbytes : 64 * b + u.cur.j + 1 = s.msgLen := by omega
      rw [hblocks, hbytes] at hstored
      exact ⟨_, .xorEnd hp hj64 hs' hd' hlast hend,
        .finished ((hstored.with_control u.cur.nextBlock _).complete .ok) rfl rfl rfl (by omega)⟩
    · have hbytes : 64 * b + u.cur.j + 1 = 64 * (b + 1) := by omega
      rw [hbytes] at hstored
      exact ⟨_, .xorBlock hp hj64 hs' hd' hlast hend, .gen (hstored.with_control u.cur.nextBlock .gen) rfl
        ⟨by omega, by simp only [Cursors.nextBlock]; omega, by simp only [Cursors.nextBlock]; omega,
          by simp only [Cursors.nextBlock]; omega⟩ (by omega)⟩
  · exact ⟨_, .xorByte hp hj64 hs' hd' hlast, .xor (b := b) (hstored.with_control { u.cur with j := u.cur.j + 1 } _)
      (by simpa using hp) ⟨hmore, hrem, hscur, hdcur⟩ hn (by dsimp only; omega) (by simpa using hks)
      (by dsimp only; omega)⟩

/-- While steps are left the core takes one, to the next stage. -/
theorem ApplyStage.move {s u : State} {k : Nat} (hs : s.applyReady) (h : ApplyStage s (k + 1) u) :
    ∃ v, CoreMove u v ∧ ApplyStage s k v := by
  cases h with
  | decode hk =>
    have ⟨_, _, _, hpos, _, _, _, _, hr, hw⟩ := hs
    rw [applySteps] at hk
    exact ⟨_, applyStart_of_ready hs,
      .gen (b := 0) ((Applied.refl hr hw).with_control _ _) rfl ⟨by omega, rfl, rfl, rfl⟩ (by omega)⟩
  | gen h hp hc hk =>
    obtain ⟨hmore, hrem, hscur, hdcur⟩ := hc
    exact ⟨_, .gen hp, .xor h.genStep rfl ⟨hmore, hrem, hscur, hdcur⟩ rfl (by simp only [State.genStep_cur]; omega)
      (by rw [State.genStep_ks, h.st]) (by simp only [State.genStep_cur]; omega)⟩
  | xor h hp hc hn hj hks hk => exact move_xor hs h hp hc hn hj hks hk
  | finished _ _ _ _ hk => cases hk

theorem ApplyStage.inputs {s u : State} {k : Nat} (hs : s.applyReady) (h : ApplyStage s k u) : u.inputs = [] := by
  obtain ⟨-, -, -, -, -, -, -, hin, -, -⟩ := hs
  cases h with
  | decode => exact hin
  | gen h | xor h | finished h => exact h.frame.inputs.trans hin

/-- A run of no more steps than are left stays on the stages. -/
theorem ApplyStage.run {s u : State} (hs : s.applyReady) (k l : Nat) (h : ApplyStage s (k + l) u) :
    ∃ t, Host.Core.run Sys2Proof.core k u = .next t ∧ ApplyStage s l t := by
  induction k generalizing u with
  | zero => exact ⟨u, rfl, by rwa [Nat.zero_add] at h⟩
  | succ k ih =>
    rw [Nat.succ_add] at h
    obtain ⟨v, hm, hv⟩ := h.move hs
    obtain ⟨t, hrun, ht⟩ := ih hv
    have hstep : step u = .next v := (step_alone (h.inputs hs)).trans hm.coreStep_eq
    exact ⟨t, (run_succ hstep).trans hrun, ht⟩

/-- With no step left the command is over. -/
theorem ApplyStage.over {s t : State} (h : ApplyStage s 0 t) :
    Applied s ((s.msgLen + 63) / 64) s.msgLen t ∧ t.phase = .idle ∧ t.done = true ∧ t.err = .ok := by
  cases h with
  | decode hk => rw [applySteps] at hk; omega
  | gen _ _ hc hk => have := hc.more; omega
  | xor _ _ hc hn hj _ hk => have := hc.more; have := hc.rem; omega
  | finished h hp hdone herr => exact ⟨h, hp, hdone, herr⟩

/-- The whole run of a ready APPLY: all its blocks generated, all its bytes written, and the command complete. -/
theorem applyReady_run {s : State} (hs : s.applyReady) :
    ∃ t, Host.Core.run Sys2Proof.core (applySteps s.msgLen) s = .next t ∧
      Applied s ((s.msgLen + 63) / 64) s.msgLen t ∧ t.phase = .idle ∧ t.done = true ∧ t.err = .ok := by
  obtain ⟨t, hrun, ht⟩ := ApplyStage.run hs (applySteps s.msgLen) 0 (.decode rfl)
  exact ⟨t, hrun, ht.over⟩

/-- What the state after a given whole run is. -/
theorem Applied.of_run {s t : State} (hs : s.applyReady)
    (h : Host.Core.run Sys2Proof.core (applySteps s.msgLen) s = .next t) :
    Applied s ((s.msgLen + 63) / 64) s.msgLen t := by
  obtain ⟨t', hrun, ht, -⟩ := applyReady_run hs
  cases hrun.symm.trans h
  exact ht

/-- Settles O20: the run goes through the stages of APPLY, whose last says what has been done. -/
theorem applyKeystreamLaw : Obligations.ApplyKeystreamLaw := by
  intro s hs
  obtain ⟨t, hrun, ⟨hframe, hvalid, -, -, hst, hwritten, hothers⟩, hp, hdone, herr⟩ := applyReady_run hs
  obtain ⟨hregs, hirq, hover, hlat, hparams, hinputs, hreads, hdraws⟩ := hframe
  refine ⟨t, hrun, hp, hdone, herr, hwritten, hothers, ?_, fun i h12 h13 => ?_, hvalid, hover, hirq, hregs, hlat, hparams,
    hinputs, hreads, hdraws⟩
  · rw [hst, counter_blocksOn]
  · rw [hst, blocksOn_getElem_other _ _ h12 h13]

/-- Settles O22: both runs use one keystream, which cancels against itself. -/
theorem applyTwiceGivesBackTheInput : Obligations.ApplyTwiceGivesBackTheInput := by
  intro s₁ t₁ s₂ t₂ hs₁ hs₂ hst hlen hrun₁ hread hrun₂ i hi
  have h₁ := (Applied.of_run hs₁ hrun₁).written i hi
  have h₂ := (Applied.of_run hs₂ hrun₂).written i (by omega)
  rw [h₂, State.outputByte, hread i hi, h₁, State.outputByte, hst, BitVec.xor_assoc, BitVec.xor_self, BitVec.xor_zero]

/-- The second of two commands writes what the one command over the whole message writes there: the first has left its
source bytes alone, and the keystream goes on where the first ended (44_stream_loop.md R202). -/
theorem outputByte_second {s s₁ t₁ s₂ : State} (hs : s.applyReady) (hst₁ : s₁.st = s.st) (hmem₁ : s₁.dmem = s.dmem)
    (hdst₁ : s₁.dstBase = s.dstBase) (h₁ : Applied s₁ (s₁.msgLen / 64) s₁.msgLen t₁) (hwhole : s₁.msgLen % 64 = 0)
    (hst₂ : s₂.st = t₁.st) (hmem₂ : s₂.dmem = t₁.dmem) (hsrc₂ : s₂.srcBase = s.srcBase + s₁.msgLen) {k : Nat}
    (hk : s₁.msgLen + k < s.msgLen) : s₂.outputByte k = s.outputByte (s₁.msgLen + k) := by
  obtain ⟨-, -, -, -, -, -, hapart, -, -, -⟩ := hs
  have hsource : s₂.dmem.read (s₂.srcBase + k) = s.dmem.read (s.srcBase + (s₁.msgLen + k)) := by
    rw [hmem₂, hsrc₂, Nat.add_assoc, h₁.others _ (by omega), hmem₁]
  have hstream : keystreamByte s₂.st k = keystreamByte s.st (s₁.msgLen + k) := by
    rw [hst₂, h₁.st, hst₁, keystreamByte_blocksOn, Nat.mul_div_cancel' (Nat.dvd_of_mod_eq_zero hwhole)]
  rw [State.outputByte, State.outputByte, hsource, hstream]

/-- Settles O23, by where a byte lies: in the first part, in the second, or outside the message. -/
theorem successiveAppliesContinueOneKeystream : Obligations.SuccessiveAppliesContinueOneKeystream := by
  intro s t s₁ t₁ s₂ t₂ hs hs₁ hs₂ hst₁ hmem₁ hsrc₁ hdst₁ hwhole hst₂ hmem₂ hsrc₂ hdst₂ hlen hrun hrun₁ hrun₂
  have h := Applied.of_run hs hrun
  have h₁ := Applied.of_run hs₁ hrun₁
  have h₂ := Applied.of_run hs₂ hrun₂
  have hblocks₁ : (s₁.msgLen + 63) / 64 = s₁.msgLen / 64 := by omega
  have hblocks : (s.msgLen + 63) / 64 = s₁.msgLen / 64 + (s₂.msgLen + 63) / 64 := by omega
  rw [hblocks₁] at h₁
  refine ⟨?_, fun a => ?_⟩
  · rw [h₂.st, hst₂, h₁.st, hst₁, h.st, blocksOn_blocksOn, hblocks]
  · by_cases hout : a < s.dstBase ∨ s.dstBase + s.msgLen ≤ a
    · rw [h₂.others a (by omega), hmem₂, h₁.others a (by omega), hmem₁, h.others a hout]
    · obtain ⟨i, rfl⟩ : ∃ i, a = s.dstBase + i := ⟨a - s.dstBase, by omega⟩
      rw [h.written i (by omega)]
      by_cases hfirst : i < s₁.msgLen
      · have hsame : s₁.outputByte i = s.outputByte i := by
          rw [State.outputByte, State.outputByte, hmem₁, hsrc₁, hst₁]
        rw [h₂.others _ (by omega), hmem₂, ← hdst₁, h₁.written i hfirst, hsame]
      · obtain ⟨k, rfl⟩ : ∃ k, i = s₁.msgLen + k := ⟨i - s₁.msgLen, by omega⟩
        rw [← Nat.add_assoc, ← hdst₂, h₂.written k (by omega)]
        exact outputByte_second hs hst₁ hmem₁ hdst₁ h₁ hwhole hst₂ hmem₂ hsrc₂ (by omega)

end Sys2Proof.Machine
end

section
/-! Errors: an illegal word ends with ILLEGAL, and no ending with a non-zero code has changed more than STATUS and, for
INIT, VALID (60_exceptions.md R233, R237). -/

namespace Sys2Proof.Machine

/-- The word of a command has MBZ = 0 and an OPCODE of the table (30_encoding.md R93). -/
theorem encode_fields (i : Instr) :
    (encode i).extractLsb' 4 28 = 0 ∧ (encode i).extractLsb' 0 4 ≠ 0 ∧ ((encode i).extractLsb' 0 4).toNat < 4 := by
  cases i with
  | init => decide
  | block => decide
  | apply => decide

/-- An illegal word decodes to no command (30_encoding.md R94). -/
theorem exists_reject_of_illegal {w : Word}
    (h : w.extractLsb' 4 28 ≠ 0 ∨ w.extractLsb' 0 4 = 0 ∨ 4 ≤ (w.extractLsb' 0 4).toNat) :
    ∃ e, decode w = .reject e := by
  cases hd : decode w with
  | reject e => exact ⟨e, rfl⟩
  | ok i =>
    obtain ⟨hmbz, hzero, hlt⟩ := encode_fields i
    rw [eq_encode_of_decode hd] at h
    rcases h with h | h | h
    · exact absurd hmbz h
    · exact absurd h hzero
    · exact absurd hlt (Nat.not_lt.2 h)

/-- Settles O3: no command has the word, so the core's move is the one that completes with ILLEGAL. -/
theorem illegalWordCompletesIllegal : Obligations.IllegalWordCompletesIllegal := by
  intro s hin hp hw
  obtain ⟨e, hd⟩ := exists_reject_of_illegal hw
  rw [step_alone hin]
  exact (CoreMove.illegal hp e hd).coreStep_eq

/-- A core move that ends a command with a non-zero code writes STATUS and VALID only (60_exceptions.md R233). -/
theorem CoreMove.error_frame {s t : State} (h : CoreMove s t) (hbusy : s.phase ≠ .idle) (hidle : t.phase = .idle)
    (herr : t.err ≠ .ok) :
    t = { s with valid := t.valid, phase := .idle, done := true, err := t.err, race := Race.none } := by
  cases h with
  | illegal | initKey | initNonce | blockNone | applyEnd => rfl
  | initOk | blockOk | xorEnd => exact absurd rfl herr
  | idle => exact absurd hidle hbusy
  | applyStart | gen | xorBlock => cases hidle
  | xorByte => exact absurd (by simpa using hidle) hbusy

/-- Settles O57; that VALID moves for INIT only is `CoreMove.valid_changed`. -/
theorem errorsChangeOnlyStatus : Obligations.ErrorsChangeOnlyStatus := by
  intro s t h hbusy hidle herr
  have hm : CoreMove s t := coreStep_move h
  refine ⟨hm.error_frame hbusy hidle herr, fun hvalid => ?_⟩
  obtain ⟨-, hcmd, -, -⟩ := hm.valid_changed hvalid
  exact hcmd

end Sys2Proof.Machine
end

section
/-! Reset: the values it gives, the bytes of DMEM it leaves alone, and the commands issued right after it
(70_reset_and_hazards.md R260 to R262). -/

namespace Sys2Proof.Machine

/-- STATUS after a reset is 0: it shows only fields that take their reset values (10_state.md R34, R49). -/
theorem coreReset_statusWord (s : State) : s.coreReset.statusWord = 0 := by
  have hreset : s.coreReset.statusWord = State.reset.statusWord := rfl
  rw [hreset]
  decide

/-- Settles O46: the reset event answers `coreReset`, which holds these values field by field. -/
theorem resetEventGivesResetValues : Obligations.ResetEventGivesResetValues :=
  fun s => ⟨s.coreReset, rfl, rfl, rfl, rfl, rfl, ctrlWord_eq s.coreReset, coreReset_statusWord s, rfl, rfl, rfl⟩

/-- A reset that abandons no APPLY leaves DMEM alone (70_reset_and_hazards.md R261). -/
theorem dmemAfterReset_quiet {s : State} (h : s.applyRunning = false) : s.dmemAfterReset = s.dmem := by
  rw [State.dmemAfterReset, h]
  rfl

/-- A byte of DMEM after a reset: free in the destination range of an abandoned APPLY, kept elsewhere
(70_reset_and_hazards.md R261; 93_implementation_defined.md U8). -/
theorem read_dmemAfterReset {s : State} (hw : s.dmem.wf = true) (a : Nat) :
    s.dmemAfterReset.read a =
      if s.applyRunning = true ∧ s.inDest a = true then Config.freeByte (s.draws + (a - s.dstBase))
      else s.dmem.read a := by
  cases hr : s.applyRunning with
  | false => rw [dmemAfterReset_quiet hr, if_neg fun h => Bool.false_ne_true h.1]
  | true =>
    rw [State.dmemAfterReset, if_pos hr, (fillFree_read hw _ _ _).2]
    simp only [inDest_iff, true_and]

/-- Settles O47, by whether an APPLY is abandoned and whether the byte is in its destination range. -/
theorem resetLeavesDmemOutsideAnAbandonedRange : Obligations.ResetLeavesDmemOutsideAnAbandonedRange := by
  intro s hw
  refine ⟨s.coreReset, rfl, dmemAfterReset_quiet, fun a hout => ?_, fun hr i hi => ?_⟩
  · have hkept : ¬(s.applyRunning = true ∧ s.inDest a = true) := fun h => Bool.false_ne_true (hout.symm.trans h.2)
    rw [State.coreReset_dmem, read_dmemAfterReset hw, if_neg hkept]
  · have hin : s.inDest (s.dstBase + i) = true := by rw [inDest_iff]; omega
    rw [State.coreReset_dmem, read_dmemAfterReset hw, if_pos ⟨hr, hin⟩, Nat.add_sub_cancel_left]

/-- A CMD write right after reset is accepted, and the second step is the core's DECODE step. -/
theorem run_cmd_after_reset {w : Word} {t : State} (h : CoreMove (State.reset.accept w) t) :
    Host.Core.run Sys2Proof.core 2 { State.reset with inputs := [writeEvent .cmd w] } = .next t := by
  have haccept : step { State.reset with inputs := [writeEvent .cmd w] } = .next (State.reset.accept w) :=
    cmdWrite_idle rfl w
  have hdecode : step (State.reset.accept w) = .next t := (step_alone rfl).trans h.coreStep_eq
  rw [run_succ haccept, run_succ hdecode]
  rfl

/-- Settles O48: after reset VALID = 0 stops BLOCK and APPLY, and KEY_LEN = 0 stops INIT. -/
theorem commandsRightAfterReset : Obligations.CommandsRightAfterReset := by
  rintro w status (⟨rfl, rfl⟩ | ⟨rfl, rfl⟩ | ⟨rfl, rfl⟩)
  · exact ⟨_, run_cmd_after_reset (.blockNone rfl (decode_encode .block) rfl), rfl, rfl, rfl⟩
  · exact ⟨_, run_cmd_after_reset (.applyEnd rfl (decode_encode .apply) _ (applyVerdict_notInit rfl)), rfl, rfl, rfl⟩
  · exact ⟨_, run_cmd_after_reset (.initKey rfl (decode_encode .init) (by decide)), rfl, rfl, rfl⟩

end Sys2Proof.Machine
end

section
/-! An undisturbed APPLY is BUSY while core steps are left (70_reset_and_hazards.md R274). -/

namespace Sys2Proof.Machine

/-- Only the last stage, which has no step left, is idle. -/
theorem ApplyStage.busy {s u : State} {k : Nat} (hs : s.applyReady) (h : ApplyStage s (k + 1) u) : u.busy = true := by
  obtain ⟨hdecode, -⟩ := hs
  have hphase : u.phase ≠ .idle := by
    cases h with
    | decode => simp [hdecode]
    | gen _ hp | xor _ hp => simp [hp]
    | finished _ _ _ _ hk => cases hk
  exact busy_of_not_idle hphase

/-- Settles O21: after fewer steps than the whole command takes, the run is at a stage with steps left. -/
theorem applyStaysBusyUntilItsLastStep : Obligations.ApplyStaysBusyUntilItsLastStep := by
  intro s k hs hk
  obtain ⟨l, hl⟩ : ∃ l, applySteps s.msgLen = k + (l + 1) := ⟨applySteps s.msgLen - k - 1, by omega⟩
  obtain ⟨t, hrun, ht⟩ := ApplyStage.run hs k (l + 1) (.decode hl.symm)
  exact ⟨t, hrun, ht.busy hs⟩

end Sys2Proof.Machine
end

section
/-! A host that keeps its duties: what each of its events answers, said once, and that none of them stops the machine,
overruns, races or disturbs a running command (70_reset_and_hazards.md R267, R268, R271). -/

namespace Sys2Proof.Machine

/-- Every way a dutiful host event answers: a CMD write only to an idle core, and a DMEM write only outside the ranges
of a running APPLY. -/
inductive DutifulMove (s : State) : State → Prop where
  | read (r : List HostRead) (d : Nat) : DutifulMove s { s with reads := r, draws := d }
  | wait (r : List HostRead) (l : List Event) : DutifulMove s { s with reads := r, inputs := l }
  | ctrl (v : Word) : DutifulMove s (s.writeCtrl v)
  | status (v : Word) : DutifulMove s (s.writeStatus v)
  | regs (r : OperandRegs) : DutifulMove s { s with regs := r }
  | accept (hp : s.phase = .idle) (w : Word) : DutifulMove s (s.accept w)
  | store (a : Nat) (b : Byte) (h : s.applyRunning = false ∨ (s.inSource a = false ∧ s.inDest a = false)) :
      DutifulMove s (s.hostStore a b)

/-! ### Each dutiful event answers by one of these moves -/

/-- The duty of a DMEM read: inside DMEM, and outside both ranges of a running APPLY (70_reset_and_hazards.md R271). -/
theorem quiet_of_respects {s : State} {a : Nat} (h : (Event.dmemRead a).respects s = true) :
    a < s.params.dmemSize ∧ (s.applyRunning = false ∨ (s.inSource a = false ∧ s.inDest a = false)) := by
  simpa [Event.respects] using h

/-- A DMEM write has the duty of a DMEM read of its byte. -/
theorem respects_dmemWrite (s : State) (a : Nat) (b : Byte) :
    (Event.dmemWrite a b).respects s = (Event.dmemRead a).respects s := rfl

/-- The duty of a register write: aligned, and no CMD write while BUSY (70_reset_and_hazards.md R268). -/
theorem regWrite_duty {s : State} {off size : Nat} {v : Word} (h : (Event.regWrite off size v).respects s = true) :
    regAccessOk off size = true ∧ (Reg.ofOffset off = some .cmd → s.phase = .idle) := by
  simp only [Event.respects, Bool.and_eq_true, Bool.not_eq_true', Bool.and_eq_false_iff, decide_eq_false_iff_not] at h
  obtain ⟨hok, hcmd⟩ := h
  refine ⟨hok, fun hc => ?_⟩
  have hidle : s.busy = false := hcmd.resolve_right (not_not.2 hc)
  simpa [State.busy] using hidle

/-- A write to a register, CMD only while idle. -/
theorem writeReg_dutiful {s : State} (v : Word) {r : Reg} (h : r = .cmd → s.phase = .idle) :
    DutifulMove s (s.writeReg v r) := by
  cases r with
  | ctrl => exact .ctrl v
  | status => exact .status v
  | cmd =>
    have hp := h rfl
    rw [State.writeReg, State.issue, busy_of_idle hp]
    exact .accept hp v
  | state | ks => exact .read s.reads s.draws
  | _ => exact .regs _

theorem regRead_dutiful {s : State} {off size : Nat} (h : regAccessOk off size = true) :
    ∃ t, runEvent (.regRead off size) s = .next t ∧ DutifulMove s t := by
  simp only [runEvent, hostRegRead, if_pos h]
  cases Reg.ofOffset off with
  | some r => exact ⟨_, rfl, .read _ _⟩
  | none => exact ⟨_, rfl, .read _ s.draws⟩

theorem regWrite_dutiful {s : State} {off size : Nat} {v : Word} (h : (Event.regWrite off size v).respects s = true) :
    ∃ t, runEvent (.regWrite off size v) s = .next t ∧ DutifulMove s t := by
  obtain ⟨hok, hcmd⟩ := regWrite_duty h
  simp only [runEvent, hostRegWrite, if_pos hok]
  cases hr : Reg.ofOffset off with
  | some r => exact ⟨_, rfl, writeReg_dutiful v fun hc => hcmd (hc ▸ hr)⟩
  | none => exact ⟨_, rfl, .read s.reads s.draws⟩

theorem hostWait_dutiful (s : State) : ∃ t, runEvent .wait s = .next t ∧ DutifulMove s t := by
  rw [runEvent, hostWait]
  cases s.busy with
  | true => exact ⟨_, rfl, .wait _ _⟩
  | false => exact ⟨_, rfl, .wait _ s.inputs⟩

/-- Every dutiful host event answers, by one of the dutiful moves. -/
theorem exists_dutifulMove {s : State} {e : Event} (h : e.respects s = true) (hcore : e ≠ .core) (hreset : e ≠ .reset) :
    ∃ t, runEvent e s = .next t ∧ DutifulMove s t := by
  cases e with
  | core => exact absurd rfl hcore
  | reset => exact absurd rfl hreset
  | coreDmemRefused | busRead | busWrite => cases h
  | regRead off size => exact regRead_dutiful h
  | regWrite off size v => exact regWrite_dutiful h
  | dmemRead a =>
    obtain ⟨ha, hquiet⟩ := quiet_of_respects h
    exact ⟨_, dmemRead_quiet ha (hquiet.imp_right And.right), .read _ s.draws⟩
  | dmemWrite a b =>
    obtain ⟨ha, hquiet⟩ := quiet_of_respects (respects_dmemWrite s a b ▸ h)
    exact ⟨_, dmemWrite_quiet b ha hquiet, .store a b hquiet⟩
  | wait => exact hostWait_dutiful s

/-! ### OVERRUN and races -/

/-- A dutiful event sets no OVERRUN. -/
theorem DutifulMove.overrun {s t : State} (h : DutifulMove s t) (ho : t.overrun = true) : s.overrun = true := by
  cases h with
  | read | wait | ctrl | regs | accept => exact ho
  | status v => exact (Bool.and_eq_true_iff.1 ho).1
  | store a b => rwa [State.hostStore_overrun] at ho

/-- A dutiful event records no race: only an accept changes the record of races, and it empties it. -/
theorem DutifulMove.raceFree {s t : State} (h : DutifulMove s t) (hr : s.raceFree) : t.raceFree := by
  cases h with
  | read | wait | ctrl | status | regs => exact hr
  | accept => exact ⟨rfl, rfl⟩
  | store a b => exact ⟨(State.hostStore_fetched s a b).trans hr.1, (State.hostStore_landed s a b).trans hr.2⟩

/-- A core step records no race. -/
theorem CoreMove.raceFree {s t : State} (h : CoreMove s t) (hr : s.raceFree) : t.raceFree := by
  cases h with
  | idle | applyStart | gen => exact hr
  | xorByte _ hj | xorBlock _ hj =>
    have hrace : (s.xorStore hj).race = s.race := xorStore_race s hj
    exact ⟨hrace ▸ hr.1, hrace ▸ hr.2⟩
  | _ => exact ⟨rfl, rfl⟩

/-- Settles O52, by who takes the event: the core, the reset input, or the host. -/
theorem dutifulHostIsNeverRefused : Obligations.DutifulHostIsNeverRefused := by
  intro s e hi h
  by_cases hcore : e = .core
  · subst hcore
    obtain ⟨t, ht⟩ := exists_coreMove hi
    exact ⟨t, ht.coreStep_eq, fun ho => ht.coreFrame.overrun ▸ ho, ht.raceFree⟩
  · by_cases hreset : e = .reset
    · subst hreset
      exact ⟨s.coreReset, rfl, fun ho => absurd ho Bool.false_ne_true, fun _ => ⟨rfl, rfl⟩⟩
    · obtain ⟨t, hrun, ht⟩ := exists_dutifulMove h hcore hreset
      exact ⟨t, hrun, ht.overrun, ht.raceFree⟩

/-! ### What a dutiful event leaves to a running command -/

/-- A dutiful event at a busy core changes only what the host owns, DMEM and the race record (10_state.md R48). -/
theorem DutifulMove.frame {s t : State} (h : DutifulMove s t) (hb : s.phase ≠ .idle) :
    t = { s with irqEn := t.irqEn, done := t.done, overrun := t.overrun, regs := t.regs, dmem := t.dmem, race := t.race,
                 inputs := t.inputs, reads := t.reads, draws := t.draws } := by
  cases h with
  | read | wait | ctrl | status | regs => rfl
  | accept hp => exact absurd hp hb
  | store a b => rw [State.hostStore_frame s a b]

/-- A dutiful event sets no DONE: only a core step that ends a command does (10_state.md R37). -/
theorem DutifulMove.done {s t : State} (h : DutifulMove s t) (hd : t.done = true) : s.done = true := by
  cases h with
  | read | wait | ctrl | regs => exact hd
  | status v => exact (Bool.and_eq_true_iff.1 hd).1
  | accept => cases hd
  | store a b => rwa [State.hostStore_done] at hd

/-- A dutiful event at a busy core decides no race. -/
theorem DutifulMove.race {s t : State} (h : DutifulMove s t) (hb : s.phase ≠ .idle) :
    t.race.fetched = s.race.fetched ∧ t.race.landed = s.race.landed := by
  cases h with
  | read | wait | ctrl | status | regs => exact ⟨rfl, rfl⟩
  | accept hp => exact absurd hp hb
  | store a b => exact ⟨State.hostStore_fetched s a b, State.hostStore_landed s a b⟩

/-- A dutiful event keeps the bytes of both ranges of a running APPLY, and the record of their values before it
(70_reset_and_hazards.md R271; log 7). -/
theorem DutifulMove.ranges {s t : State} (h : DutifulMove s t) (hw : s.dmem.wf = true)
    (hv : s.race.hostView.wf = true) (hr : s.applyRunning = true) {c : Nat}
    (hc : s.inSource c = true ∨ s.inDest c = true) :
    t.dmem.read c = s.dmem.read c ∧ t.race.hostView.read c = s.race.hostView.read c := by
  cases h with
  | read | wait | ctrl | status | regs => exact ⟨rfl, rfl⟩
  | accept hp => exact absurd hp (applyRunning_busy hr)
  | store a b hquiet =>
    obtain ⟨hsrc, hdst⟩ := hquiet.resolve_left (by simp [hr])
    have hne : c ≠ a := by
      rintro rfl
      rcases hc with hc | hc
      · exact Bool.false_ne_true (hsrc.symm.trans hc)
      · exact Bool.false_ne_true (hdst.symm.trans hc)
    rw [State.hostStore_dmem, State.hostStore_hostView, if_pos (busy_of_not_idle (applyRunning_busy hr))]
    exact ⟨Memory.read_write_other hw b hne, Memory.read_write_other hv b hne⟩

/-- Settles O53, from what the dutiful moves keep. -/
theorem dutifulHostDoesNotDisturbACommand : Obligations.DutifulHostDoesNotDisturbACommand := by
  intro s t e hb hw hv h hcore hreset hrun
  obtain ⟨t', hrun', ht⟩ := exists_dutifulMove h hcore hreset
  cases hrun'.symm.trans hrun
  obtain ⟨hfetched, hlanded⟩ := ht.race hb
  exact ⟨ht.frame hb, ht.done, hfetched, hlanded, fun hr _ hc => ht.ranges hw hv hr hc⟩

end Sys2Proof.Machine
end

section
/-! The core step whose DMEM access the platform refuses (93_implementation_defined.md U14; log 9). -/

namespace Sys2Proof.Machine

/-- XOR is the phase that accesses DMEM, so there the refusal is a fault (20_memory.md R60). -/
theorem coreStepDmemRefused_of_xor {s : State} (hp : s.phase = .xor) :
    coreStepDmemRefused s = .fault .dmemRefused := by
  simp only [coreStepDmemRefused, hp]

/-- In the other phases the core has no DMEM access to refuse, and takes its step. -/
theorem coreStepDmemRefused_of_ne_xor {s : State} (hp : s.phase ≠ .xor) :
    coreStepDmemRefused s = coreStep s := by
  cases hq : s.phase with
  | xor => exact absurd hq hp
  | idle | decode | gen => simp only [coreStepDmemRefused, hq]

/-- Settles O43, by whether the core is in XOR. -/
theorem refusedDmemAccessFaults : Obligations.RefusedDmemAccessFaults :=
  fun _ => ⟨coreStepDmemRefused_of_xor, coreStepDmemRefused_of_ne_xor⟩

end Sys2Proof.Machine
end
